-- ==== Sys2Proof/Word.lean ====
section
/-! DEFINITION. The two value widths of the engine (R9, R13): 32-bit words and 8-bit bytes. Word
arithmetic is BitVec arithmetic, which wraps modulo 2^32 as R13 and R172 say. -/

namespace Sys2Proof

/-- A byte: 8 bits (R9). -/
abbrev Byte := BitVec 8

/-- A register, address, displacement or program counter: 32 bits (R9, R13). -/
abbrev Word := BitVec 32

end Sys2Proof
end

