-- ==== Sys2Proof/Syntax.lean ====
section
/-! DEFINITION. The instructions of the nemu subset: one constructor of `Instr` for each row of
spec/opcode_table.json (R93), with the operand forms of R84 and R126. -/

namespace Sys2Proof

/-- The eight 32-bit general registers in index order 0 to 7 (R21). -/
inductive Reg32 where
  | eax | ecx | edx | ebx | esp | ebp | esi | edi
deriving DecidableEq, Repr

/-- The eight 8-bit register views in index order 0 to 7 (R23). -/
inductive Reg8 where
  | al | cl | dl | bl | ah | ch | dh | bh
deriving DecidableEq, Repr

/-- A memory operand as ModRM, SIB and displacement bytes give it (R84): the supported modes of
R124, then the three SIB forms, whose SIB byte is fetched and never interpreted (R83). -/
inductive MemRef where
  /-- mode 0, rm not 4 or 5: `[base]` -/
  | base (b : Reg32)
  /-- mode 0, rm = 5: `[disp32]`, no base register -/
  | disp (d : Word)
  /-- mode 1, rm not 4: `[base + disp8]` -/
  | baseDisp8 (b : Reg32) (d : Byte)
  /-- mode 2, rm not 4: `[base + disp32]` -/
  | baseDisp32 (b : Reg32) (d : Word)
  /-- mode 0, rm = 4: unsupported -/
  | sib (sib : Byte)
  /-- mode 1, rm = 4: unsupported -/
  | sibDisp8 (sib : Byte) (d : Byte)
  /-- mode 2, rm = 4: unsupported -/
  | sibDisp32 (sib : Byte) (d : Word)
deriving DecidableEq, Repr

/-- The `rm32` (`ρ = Reg32`) or `rm8` (`ρ = Reg8`) operand of a ModRM descriptor (R18, R120):
a register in mode 3, memory otherwise. -/
inductive RM (ρ : Type) where
  | reg (r : ρ)
  | mem (m : MemRef)
deriving DecidableEq, Repr

/-- The 36 instructions of R93, in the order of its table. A `rel` or `imm` is the field as
encoded; sign extension belongs to the meaning (R86, R89). -/
inductive Instr where
  | addRm32R32 (d : RM Reg32) (r : Reg32)
  | cmpR32Rm32 (r : Reg32) (d : RM Reg32)
  | pushR32 (r : Reg32)
  | popR32 (r : Reg32)
  | joRel8 (rel : Byte)
  | jnoRel8 (rel : Byte)
  | jcRel8 (rel : Byte)
  | jncRel8 (rel : Byte)
  | jzRel8 (rel : Byte)
  | jnzRel8 (rel : Byte)
  | jbeRel8 (rel : Byte)
  | jaRel8 (rel : Byte)
  | jsRel8 (rel : Byte)
  | jnsRel8 (rel : Byte)
  | jlRel8 (rel : Byte)
  | jgeRel8 (rel : Byte)
  | jleRel8 (rel : Byte)
  | jgRel8 (rel : Byte)
  | addRm32Imm8 (d : RM Reg32) (imm : Byte)
  | subRm32Imm8 (d : RM Reg32) (imm : Byte)
  | cmpRm32Imm8 (d : RM Reg32) (imm : Byte)
  | movRm8R8 (d : RM Reg8) (r : Reg8)
  | movRm32R32 (d : RM Reg32) (r : Reg32)
  | movR8Rm8 (r : Reg8) (d : RM Reg8)
  | movR32Rm32 (r : Reg32) (d : RM Reg32)
  | movR8Imm8 (r : Reg8) (imm : Byte)
  | movR32Imm32 (r : Reg32) (imm : Word)
  | ret
  | leave
  | callRel32 (rel : Word)
  | jmpRel32 (rel : Word)
  | jmpRel8 (rel : Byte)
  | inAlDx
  | outDxAl
  | incRm32 (d : RM Reg32)
  | decRm32 (d : RM Reg32)
deriving DecidableEq, Repr

end Sys2Proof
end

