-- ==== Sys2Proof/WellFormed.lean ====
section
/-! DEFINITION. Which instruction terms have an encoding. Only the base register of a memory operand
can be wrong: rm = 4 is taken by the SIB escape in modes 0, 1 and 2, and rm = 5 by the disp32-only
form in mode 0 (R84, R124). -/

namespace Sys2Proof

/-- R84, R124: a base register whose encoding no escape takes. The SIB forms are well formed: they
have an encoding, and running them is fatal (R99). -/
def MemRef.wellFormed : MemRef → Bool
  | .base b => b != .esp && b != .ebp
  | .disp _ => true
  | .baseDisp8 b _ => b != .esp
  | .baseDisp32 b _ => b != .esp
  | .sib _ => true
  | .sibDisp8 _ _ => true
  | .sibDisp32 _ _ => true

/-- Every register of mode 3 is encodable (R126). -/
def RM.wellFormed {ρ : Type} : RM ρ → Bool
  | .reg _ => true
  | .mem m => m.wellFormed

/-- An instruction is well formed when its ModRM operand, if it has one, is. -/
def Instr.wellFormed : Instr → Bool
  | .addRm32R32 d _ => d.wellFormed
  | .cmpR32Rm32 _ d => d.wellFormed
  | .pushR32 _ => true
  | .popR32 _ => true
  | .joRel8 _ => true
  | .jnoRel8 _ => true
  | .jcRel8 _ => true
  | .jncRel8 _ => true
  | .jzRel8 _ => true
  | .jnzRel8 _ => true
  | .jbeRel8 _ => true
  | .jaRel8 _ => true
  | .jsRel8 _ => true
  | .jnsRel8 _ => true
  | .jlRel8 _ => true
  | .jgeRel8 _ => true
  | .jleRel8 _ => true
  | .jgRel8 _ => true
  | .addRm32Imm8 d _ => d.wellFormed
  | .subRm32Imm8 d _ => d.wellFormed
  | .cmpRm32Imm8 d _ => d.wellFormed
  | .movRm8R8 d _ => d.wellFormed
  | .movRm32R32 d _ => d.wellFormed
  | .movR8Rm8 _ d => d.wellFormed
  | .movR32Rm32 _ d => d.wellFormed
  | .movR8Imm8 _ _ => true
  | .movR32Imm32 _ _ => true
  | .ret => true
  | .leave => true
  | .callRel32 _ => true
  | .jmpRel32 _ => true
  | .jmpRel8 _ => true
  | .inAlDx => true
  | .outDxAl => true
  | .incRm32 d => d.wellFormed
  | .decRm32 d => d.wellFormed

end Sys2Proof
end

