-- ==== Sys2Proof/Decode.lean ====
section
/-! DEFINITION. The decoder and the encoder, from the encoding tables of 30_encoding.md (R80 to R99)
and 40_modrm_operands.md (R120 to R123). Decoding is written once, as a program of fetches
(`decodeInstr`), and run either on a list of bytes (`decode`) or, in Machine/Fetch.lean, on memory
at the program counter, where each fetch is one `MemRead` (R15). -/

namespace Sys2Proof

/-! ### Register numbers (R21, R23, R90) -/

/-- R21: the register a 3-bit code names. -/
def Reg32.ofIndex (n : BitVec 3) : Reg32 :=
  match n.toNat with
  | 0 => .eax
  | 1 => .ecx
  | 2 => .edx
  | 3 => .ebx
  | 4 => .esp
  | 5 => .ebp
  | 6 => .esi
  | _ => .edi

/-- R21: the 3-bit code of a 32-bit register. -/
def Reg32.index : Reg32 → BitVec 3
  | .eax => 0
  | .ecx => 1
  | .edx => 2
  | .ebx => 3
  | .esp => 4
  | .ebp => 5
  | .esi => 6
  | .edi => 7

/-- R23: the 8-bit view a 3-bit code names. -/
def Reg8.ofIndex (n : BitVec 3) : Reg8 :=
  match n.toNat with
  | 0 => .al
  | 1 => .cl
  | 2 => .dl
  | 3 => .bl
  | 4 => .ah
  | 5 => .ch
  | 6 => .dh
  | _ => .bh

/-- R23: the 3-bit code of an 8-bit view. -/
def Reg8.index : Reg8 → BitVec 3
  | .al => 0
  | .cl => 1
  | .dl => 2
  | .bl => 3
  | .ah => 4
  | .ch => 5
  | .dh => 6
  | .bh => 7

/-! ### Byte order (R51, R52) and sign extension (R13) -/

/-- R51, R52: the 32-bit value of four bytes, the first at the lowest address. -/
def le32 (b0 b1 b2 b3 : Byte) : Word := b3 ++ b2 ++ b1 ++ b0

/-- R51: the byte of `v` at offset `k` from the lowest address, bits `8k+7` to `8k`. -/
def byteOf (v : Word) (k : Nat) : Byte := v.extractLsb' (8 * k) 8

/-- R51: the four bytes of a 32-bit value at ascending addresses. -/
def le32Bytes (v : Word) : List Byte := [byteOf v 0, byteOf v 1, byteOf v 2, byteOf v 3]

/-- R13: `sext_32` of an 8-bit value. -/
def sext32 (b : Byte) : Word := b.signExtend 32

/-! ### The opcode map (R93) -/

/-- What the first byte of an instruction selects (R91, R92): one form for each row of R93 but that
the two group opcodes are one form each. -/
inductive OpForm where
  | addRm32R32 | cmpR32Rm32 | pushR32 | popR32
  | joRel8 | jnoRel8 | jcRel8 | jncRel8 | jzRel8 | jnzRel8 | jbeRel8 | jaRel8
  | jsRel8 | jnsRel8 | jlRel8 | jgeRel8 | jleRel8 | jgRel8
  | group83
  | movRm8R8 | movRm32R32 | movR8Rm8 | movR32Rm32 | movR8Imm8 | movR32Imm32
  | ret | leave | callRel32 | jmpRel32 | jmpRel8 | inAlDx | outDxAl
  | groupFF
deriving DecidableEq, Repr

/-- R93, first column: the opcode byte of a form, or the base byte of a register-in-opcode family
(R92). These are the spec's imported IA-32 values (decision D2), kept in this one table. -/
def OpForm.opcode : OpForm → Byte
  | .addRm32R32 => 0x01
  | .cmpR32Rm32 => 0x3B
  | .pushR32 => 0x50
  | .popR32 => 0x58
  | .joRel8 => 0x70
  | .jnoRel8 => 0x71
  | .jcRel8 => 0x72
  | .jncRel8 => 0x73
  | .jzRel8 => 0x74
  | .jnzRel8 => 0x75
  | .jbeRel8 => 0x76
  | .jaRel8 => 0x77
  | .jsRel8 => 0x78
  | .jnsRel8 => 0x79
  | .jlRel8 => 0x7C
  | .jgeRel8 => 0x7D
  | .jleRel8 => 0x7E
  | .jgRel8 => 0x7F
  | .group83 => 0x83
  | .movRm8R8 => 0x88
  | .movRm32R32 => 0x89
  | .movR8Rm8 => 0x8A
  | .movR32Rm32 => 0x8B
  | .movR8Imm8 => 0xB0
  | .movR32Imm32 => 0xB8
  | .ret => 0xC3
  | .leave => 0xC9
  | .callRel32 => 0xE8
  | .jmpRel32 => 0xE9
  | .jmpRel8 => 0xEB
  | .inAlDx => 0xEC
  | .outDxAl => 0xEE
  | .groupFF => 0xFF

/-- R92: a register-in-opcode family matches on the top five bits, every other form on all eight. -/
def OpForm.mask : OpForm → Byte
  | .pushR32 => 0xF8
  | .popR32 => 0xF8
  | .movR8Imm8 => 0xF8
  | .movR32Imm32 => 0xF8
  | _ => 0xFF

/-- The rows of the opcode map. -/
def opForms : List OpForm :=
  [.addRm32R32, .cmpR32Rm32, .pushR32, .popR32,
    .joRel8, .jnoRel8, .jcRel8, .jncRel8, .jzRel8, .jnzRel8, .jbeRel8, .jaRel8,
    .jsRel8, .jnsRel8, .jlRel8, .jgeRel8, .jleRel8, .jgRel8, .group83] ++
  [.movRm8R8, .movRm32R32, .movR8Rm8, .movR32Rm32, .movR8Imm8, .movR32Imm32,
    .ret, .leave, .callRel32, .jmpRel32, .jmpRel8, .inAlDx, .outDxAl, .groupFF]

/-- Whether a first byte belongs to a form. -/
def OpForm.covers (f : OpForm) (op : Byte) : Bool := op &&& f.mask == f.opcode

/-- The dispatcher (R91): a total, static mapping from the first byte. `none` is one of the 195
unsupported bytes of R97. -/
def dispatch (op : Byte) : Option OpForm := opForms.find? (·.covers op)

/-- R94, R95: the selectors of the group opcodes. -/
def selAdd : BitVec 3 := 0
/-- R94 -/
def selSub : BitVec 3 := 5
/-- R94 -/
def selCmp : BitVec 3 := 7
/-- R95 -/
def selInc : BitVec 3 := 0
/-- R95 -/
def selDec : BitVec 3 := 1

/-! ### Decoding -/

/-- A program that consumes instruction bytes: the steps between one fetch and the next. `reject` is
the fatal condition UnsupportedOpcode with the opcode byte and, for a group, the selector (R271). -/
inductive Fetch (α : Type) where
  | done (a : α)
  | reject (op : Byte) (sel : Option (BitVec 3))
  /-- `Fetch8` (R15) -/
  | need8 (k : Byte → Fetch α)
  /-- `Fetch32` (R15) -/
  | need32 (k : Word → Fetch α)

/-- R82: the `mode` field. -/
def modrmMode (b : Byte) : BitVec 2 := b.extractLsb' 6 2
/-- R82: the `reg` field. -/
def modrmReg (b : Byte) : BitVec 3 := b.extractLsb' 3 3
/-- R82: the `rm` field. -/
def modrmRm (b : Byte) : BitVec 3 := b.extractLsb' 0 3

/-- R121, after the ModRM byte, for a descriptor that is not register-direct: the SIB byte if
rm = 4, then the displacement the mode asks for. -/
def decodeMem {α : Type} (mode : BitVec 2) (rm : BitVec 3) (k : MemRef → Fetch α) : Fetch α :=
  if rm = 4 then
    .need8 fun sib =>
      if mode = 0 then k (.sib sib)
      else if mode = 1 then .need8 fun d => k (.sibDisp8 sib d)
      else .need32 fun d => k (.sibDisp32 sib d)
  else if mode = 0 then
    if rm = 5 then .need32 fun d => k (.disp d)
    else k (.base (Reg32.ofIndex rm))
  else if mode = 1 then .need8 fun d => k (.baseDisp8 (Reg32.ofIndex rm) d)
  else .need32 fun d => k (.baseDisp32 (Reg32.ofIndex rm) d)

/-- `DecodeModRM` (R120, R121): the operand and the `reg` field. `toReg` says which registers the
form's `rm` field names in mode 3 (R90). -/
def decodeModRM {ρ α : Type} (toReg : BitVec 3 → ρ) (k : RM ρ → BitVec 3 → Fetch α) : Fetch α :=
  .need8 fun b =>
    if modrmMode b = 3 then k (.reg (toReg (modrmRm b))) (modrmReg b)
    else decodeMem (modrmMode b) (modrmRm b) fun m => k (.mem m) (modrmReg b)

/-- R92, R90: the register index in an opcode byte, `byte0[2:0]`. -/
def opReg (op : Byte) : BitVec 3 := op.extractLsb' 0 3

/-- The rest of an instruction after its opcode byte `op`, by form (R81, R93, R94, R95). The
selector of a group is checked after the whole descriptor and before the immediate (R94). -/
def decodeForm (op : Byte) : OpForm → Fetch Instr
  | .addRm32R32 => decodeModRM Reg32.ofIndex fun d g => .done (.addRm32R32 d (Reg32.ofIndex g))
  | .cmpR32Rm32 => decodeModRM Reg32.ofIndex fun d g => .done (.cmpR32Rm32 (Reg32.ofIndex g) d)
  | .pushR32 => .done (.pushR32 (Reg32.ofIndex (opReg op)))
  | .popR32 => .done (.popR32 (Reg32.ofIndex (opReg op)))
  | .joRel8 => .need8 fun rel => .done (.joRel8 rel)
  | .jnoRel8 => .need8 fun rel => .done (.jnoRel8 rel)
  | .jcRel8 => .need8 fun rel => .done (.jcRel8 rel)
  | .jncRel8 => .need8 fun rel => .done (.jncRel8 rel)
  | .jzRel8 => .need8 fun rel => .done (.jzRel8 rel)
  | .jnzRel8 => .need8 fun rel => .done (.jnzRel8 rel)
  | .jbeRel8 => .need8 fun rel => .done (.jbeRel8 rel)
  | .jaRel8 => .need8 fun rel => .done (.jaRel8 rel)
  | .jsRel8 => .need8 fun rel => .done (.jsRel8 rel)
  | .jnsRel8 => .need8 fun rel => .done (.jnsRel8 rel)
  | .jlRel8 => .need8 fun rel => .done (.jlRel8 rel)
  | .jgeRel8 => .need8 fun rel => .done (.jgeRel8 rel)
  | .jleRel8 => .need8 fun rel => .done (.jleRel8 rel)
  | .jgRel8 => .need8 fun rel => .done (.jgRel8 rel)
  | .group83 => decodeModRM Reg32.ofIndex fun d sel =>
      if sel = selAdd then .need8 fun imm => .done (.addRm32Imm8 d imm)
      else if sel = selSub then .need8 fun imm => .done (.subRm32Imm8 d imm)
      else if sel = selCmp then .need8 fun imm => .done (.cmpRm32Imm8 d imm)
      else .reject op (some sel)
  | .movRm8R8 => decodeModRM Reg8.ofIndex fun d g => .done (.movRm8R8 d (Reg8.ofIndex g))
  | .movRm32R32 => decodeModRM Reg32.ofIndex fun d g => .done (.movRm32R32 d (Reg32.ofIndex g))
  | .movR8Rm8 => decodeModRM Reg8.ofIndex fun d g => .done (.movR8Rm8 (Reg8.ofIndex g) d)
  | .movR32Rm32 => decodeModRM Reg32.ofIndex fun d g => .done (.movR32Rm32 (Reg32.ofIndex g) d)
  | .movR8Imm8 => .need8 fun imm => .done (.movR8Imm8 (Reg8.ofIndex (opReg op)) imm)
  | .movR32Imm32 => .need32 fun imm => .done (.movR32Imm32 (Reg32.ofIndex (opReg op)) imm)
  | .ret => .done .ret
  | .leave => .done .leave
  | .callRel32 => .need32 fun rel => .done (.callRel32 rel)
  | .jmpRel32 => .need32 fun rel => .done (.jmpRel32 rel)
  | .jmpRel8 => .need8 fun rel => .done (.jmpRel8 rel)
  | .inAlDx => .done .inAlDx
  | .outDxAl => .done .outDxAl
  | .groupFF => decodeModRM Reg32.ofIndex fun d sel =>
      if sel = selInc then .done (.incRm32 d)
      else if sel = selDec then .done (.decRm32 d)
      else .reject op (some sel)

/-- The decoder: fetch the opcode byte, dispatch on it (R91), fetch the rest. -/
def decodeInstr : Fetch Instr :=
  .need8 fun op =>
    match dispatch op with
    | none => .reject op none
    | some f => decodeForm op f

/-- What decoding a list of bytes answers. -/
inductive DecodeResult where
  /-- an instruction and the bytes after it -/
  | ok (i : Instr) (rest : List Byte)
  /-- UnsupportedOpcode: the opcode byte and, for a group, the selector (R97, R98) -/
  | unsupported (op : Byte) (sel : Option (BitVec 3))
  /-- the list ends before the instruction does -/
  | truncated
deriving DecidableEq, Repr

/-- A fetch program on a list of bytes, the first byte first (R52). -/
def Fetch.runList : Fetch Instr → List Byte → DecodeResult
  | .done i, bs => .ok i bs
  | .reject op sel, _ => .unsupported op sel
  | .need8 k, b :: bs => (k b).runList bs
  | .need8 _, [] => .truncated
  | .need32 k, b0 :: b1 :: b2 :: b3 :: bs => (k (le32 b0 b1 b2 b3)).runList bs
  | .need32 _, _ => .truncated

/-- Decode the instruction at the head of a list of bytes. -/
def decode (bs : List Byte) : DecodeResult := decodeInstr.runList bs

/-! ### Encoding -/

/-- R82: a ModRM byte from its fields. -/
def modrmByte (mode : BitVec 2) (reg rm : BitVec 3) : Byte := mode ++ reg ++ rm

/-- R84: the ModRM byte, SIB byte and displacement of a memory operand. -/
def encodeMem (g : BitVec 3) : MemRef → List Byte
  | .base b => [modrmByte 0 g b.index]
  | .disp d => modrmByte 0 g 5 :: le32Bytes d
  | .baseDisp8 b d => [modrmByte 1 g b.index, d]
  | .baseDisp32 b d => modrmByte 2 g b.index :: le32Bytes d
  | .sib sib => [modrmByte 0 g 4, sib]
  | .sibDisp8 sib d => [modrmByte 1 g 4, sib, d]
  | .sibDisp32 sib d => modrmByte 2 g 4 :: sib :: le32Bytes d

/-- R84: the bytes of a ModRM operand whose `reg` field holds `g`. -/
def encodeRM {ρ : Type} (index : ρ → BitVec 3) (g : BitVec 3) : RM ρ → List Byte
  | .reg r => [modrmByte 3 g (index r)]
  | .mem m => encodeMem g m

/-- R92: the opcode byte of a register-in-opcode form, base + r. -/
def opWithReg (f : OpForm) (r : BitVec 3) : Byte := f.opcode + r.setWidth 8

/-- The bytes of an instruction, lowest address first (R80, R81, R93). -/
def encode : Instr → List Byte
  | .addRm32R32 d r => OpForm.addRm32R32.opcode :: encodeRM Reg32.index r.index d
  | .cmpR32Rm32 r d => OpForm.cmpR32Rm32.opcode :: encodeRM Reg32.index r.index d
  | .pushR32 r => [opWithReg .pushR32 r.index]
  | .popR32 r => [opWithReg .popR32 r.index]
  | .joRel8 rel => [OpForm.joRel8.opcode, rel]
  | .jnoRel8 rel => [OpForm.jnoRel8.opcode, rel]
  | .jcRel8 rel => [OpForm.jcRel8.opcode, rel]
  | .jncRel8 rel => [OpForm.jncRel8.opcode, rel]
  | .jzRel8 rel => [OpForm.jzRel8.opcode, rel]
  | .jnzRel8 rel => [OpForm.jnzRel8.opcode, rel]
  | .jbeRel8 rel => [OpForm.jbeRel8.opcode, rel]
  | .jaRel8 rel => [OpForm.jaRel8.opcode, rel]
  | .jsRel8 rel => [OpForm.jsRel8.opcode, rel]
  | .jnsRel8 rel => [OpForm.jnsRel8.opcode, rel]
  | .jlRel8 rel => [OpForm.jlRel8.opcode, rel]
  | .jgeRel8 rel => [OpForm.jgeRel8.opcode, rel]
  | .jleRel8 rel => [OpForm.jleRel8.opcode, rel]
  | .jgRel8 rel => [OpForm.jgRel8.opcode, rel]
  | .addRm32Imm8 d imm => OpForm.group83.opcode :: (encodeRM Reg32.index selAdd d ++ [imm])
  | .subRm32Imm8 d imm => OpForm.group83.opcode :: (encodeRM Reg32.index selSub d ++ [imm])
  | .cmpRm32Imm8 d imm => OpForm.group83.opcode :: (encodeRM Reg32.index selCmp d ++ [imm])
  | .movRm8R8 d r => OpForm.movRm8R8.opcode :: encodeRM Reg8.index r.index d
  | .movRm32R32 d r => OpForm.movRm32R32.opcode :: encodeRM Reg32.index r.index d
  | .movR8Rm8 r d => OpForm.movR8Rm8.opcode :: encodeRM Reg8.index r.index d
  | .movR32Rm32 r d => OpForm.movR32Rm32.opcode :: encodeRM Reg32.index r.index d
  | .movR8Imm8 r imm => [opWithReg .movR8Imm8 r.index, imm]
  | .movR32Imm32 r imm => opWithReg .movR32Imm32 r.index :: le32Bytes imm
  | .ret => [OpForm.ret.opcode]
  | .leave => [OpForm.leave.opcode]
  | .callRel32 rel => OpForm.callRel32.opcode :: le32Bytes rel
  | .jmpRel32 rel => OpForm.jmpRel32.opcode :: le32Bytes rel
  | .jmpRel8 rel => [OpForm.jmpRel8.opcode, rel]
  | .inAlDx => [OpForm.inAlDx.opcode]
  | .outDxAl => [OpForm.outDxAl.opcode]
  | .incRm32 d => OpForm.groupFF.opcode :: encodeRM Reg32.index selInc d
  | .decRm32 d => OpForm.groupFF.opcode :: encodeRM Reg32.index selDec d

/-- The length in bytes of an instruction (R81). -/
def Instr.length (i : Instr) : Nat := (encode i).length

/-! ### Words of spec/opcode_table.json (R104) -/

/-- R104: the two-byte rows of the table, for the group opcodes, as (opcode byte, selector). -/
def twoByteRows : List (Byte × BitVec 3) :=
  [(OpForm.group83.opcode, selAdd), (OpForm.group83.opcode, selSub),
    (OpForm.group83.opcode, selCmp), (OpForm.groupFF.opcode, selInc),
    (OpForm.groupFF.opcode, selDec)]

/-- R104: whether `byte0 * 256 + byte1`, the low 16 bits of `w`, matches a two-byte row, whose
mask is 0xFF38. -/
def matchesTwoByteRow (w : Nat) : Bool :=
  twoByteRows.any fun r =>
    r.1 == BitVec.ofNat 8 (w / 256) && r.2 == modrmReg (BitVec.ofNat 8 w)

/-- The bytes, lowest address first, of an instruction that the table's numbering gives as the
number `w` of `nbits` bits; every byte above `nbits` is 0, up to the longest fetch of 8 bytes
(R81). A row of one byte has byte 0 in bits 7 to 0 and later bytes above it; a row of two bytes has
byte 0 in bits 15 to 8 and byte 1 in bits 7 to 0 (R104). Log 10. -/
def tableBytes (nbits w : Nat) : List Byte :=
  let v := w % 2 ^ nbits
  let byteAt (k : Nat) : Byte := BitVec.ofNat 8 (v / 2 ^ (8 * k))
  let first : List Byte :=
    if 16 ≤ nbits && matchesTwoByteRow v then [byteAt 1, byteAt 0] else [byteAt 0, byteAt 1]
  first ++ [byteAt 2, byteAt 3, byteAt 4, byteAt 5, byteAt 6, byteAt 7]

/-- The instruction the decoder reads from a word of the opcode table. -/
def decodeTableWord (nbits w : Nat) : Option Instr :=
  match decode (tableBytes nbits w) with
  | .ok i _ => some i
  | .unsupported _ _ => none
  | .truncated => none

end Sys2Proof
end

