-- ==== Sys2Proof/Config.lean ====
section
/-! DEFINITION. What the spec leaves to the environment (R10): the parameters of the reset that
`State.reset` performs, and the free values, which are opaque constants without a body so that
nothing can be proved about them. -/

namespace Sys2Proof.Config

/-- `MEM_SIZE` of `State.reset`. DESIGN CHOICE (log 1), unsafe: R10 leaves it to the caller
(1 to 2^32), and 95_test_vectors.md uses this value. `State.boot` takes any other. -/
def memSize : Nat := 0x10000

/-- `INIT_PC` of `State.reset`. DESIGN CHOICE (log 1), unsafe: R10 leaves it to the caller (not 0). -/
def initPc : Word := 0x7C00

/-- `INIT_SP` of `State.reset`. DESIGN CHOICE (log 1), unsafe: R10 leaves it to the caller. The
document's bootstrap makes it equal to `INIT_PC` (R313). -/
def initSp : Word := 0x7C00

/-- Which bytes the port-0x3F8 device prints as a character (R10, R256, decision D17): open. -/
opaque isPrintable : Byte → Bool

/-- Free values: general register `i` after the `n`-th fatal outcome (R270; U2: any value). Log 3. -/
opaque fatalReg : Nat → Nat → Word

/-- Free values: the flags word after the `n`-th fatal outcome (R270; U2: any value). Log 3. -/
opaque fatalFlags : Nat → Word

/-- Free values: the program counter after the `n`-th fatal outcome (R270; U2: any value). Log 3. -/
opaque fatalPc : Nat → Word

/-- Free values: the memory after the `n`-th fatal outcome (R270; U2: any value), as byte stores
made over the memory as it was. Any contents can be reached by some list of stores. Log 3. -/
opaque fatalStores : Nat → List (Nat × Byte)

end Sys2Proof.Config
end

