-- ==== Sys2Proof/Machine/State.lean ====
section
/-! DEFINITION. The machine's state as plain data: every piece of state of R20, the interface's
input and output streams, and one counter of the model's own; the fatal conditions, faults and
refusals; and the state after reset. -/

namespace Sys2Proof.Machine

/-- The eight 32-bit general registers (R21). The 8-bit views are accessors (R25). -/
structure Regs where
  eax : Word
  ecx : Word
  edx : Word
  ebx : Word
  esp : Word
  ebp : Word
  esi : Word
  edi : Word
deriving DecidableEq, Repr

/-- The memory (R50): `size` bytes at addresses 0 to `size - 1`. `cells` lists, at strictly rising
addresses, the bytes that differ from what an unlisted address reads as. -/
structure Memory where
  size : Nat
  cells : List Host.Cell
deriving DecidableEq, Repr

/-- What an unlisted address inside memory reads as: zero, the reset contents (R42). -/
def Memory.unlisted : Byte := 0

/-- The canonical form: addresses strictly rising and inside memory, no entry equal to what an
unlisted address reads as. -/
abbrev Memory.wf (m : Memory) : Prop :=
  m.cells.Pairwise (fun a b => a.1 < b.1) ∧ ∀ c ∈ m.cells, c.1 < m.size ∧ c.2 ≠ Memory.unlisted

/-- The three fatal conditions with the info each records (R270 to R274). -/
inductive Fatal where
  /-- R271: no handler for the first byte, or for the selector of a group opcode. -/
  | unsupportedOpcode (op : Byte) (sel : Option (BitVec 3))
  /-- R272: a SIB form reached an address computation. -/
  | unsupportedAddressing (mode : BitVec 2) (rm : BitVec 3)
  /-- R273: the first byte address at or above `MEM_SIZE`. -/
  | outOfBounds (addr : Nat)
deriving DecidableEq, Repr

/-- The run state (R38). -/
inductive RunState where
  /-- the next step may execute -/
  | running
  /-- the program counter reached 0 (R316) -/
  | stopped
  /-- a fatal condition occurred (R270); terminal -/
  | fatal (c : Fatal)
deriving DecidableEq, Repr

/-- Why an instruction does not answer a next state. -/
inductive Fault where
  /-- `raise Fatal.<Cause>(info)` (R16). Raised by the operand accessors and the stack primitives
  within an instruction; `step` then enters the fatal run state of R270. Safe: it is the spec's own
  outcome, and no state comes with it. -/
  | fatal (c : Fatal)
  /-- IN on port 0x3F8 when the device has no byte ready: no successor state, stuck and not a fatal
  condition (R255; U6). Raised by `execInAlDx`, passed on by `step`. Safe: nothing follows from a
  step that has not completed. -/
  | blockedOnInput
deriving DecidableEq, Repr

/-- Why the model gives no meaning. -/
inductive Refusal where
  /-- An arm of `exec` without a meaning. Safe. No arm answers it now. -/
  | notModelled (mnemonic : String)
  /-- `State.boot` with `INIT_PC = 0`, which R316 says a model should refuse. Safe. -/
  | initPcZero
  /-- `State.boot` with a memory size outside 1 to 2^32 (R314 (a); U13). Safe. -/
  | memSizeOutOfRange
  /-- `State.boot` with an image that does not fit at its load address (R312; U13). Safe. -/
  | imageDoesNotFit
deriving DecidableEq, Repr

/-- The state of the engine and of its interfaces. -/
structure State where
  /-- the general registers (R21) -/
  regs : Regs
  /-- the flags word (R26) -/
  flags : Word
  /-- the program counter (R30) -/
  pc : Word
  /-- the memory (R36) -/
  mem : Memory
  /-- Running, Stopped or Fatal (R38) -/
  runState : RunState
  /-- the bytes the port-0x3F8 device has ready, next first (R255, `input_stream` of R10) -/
  input : List Byte
  /-- the bytes written to port 0x3F8, oldest first (R256) -/
  output : List Byte
  /-- the model's own: the index of the next free value (log 4) -/
  freeCount : Nat
deriving DecidableEq, Repr

/-- What an instruction or a step answers. -/
abbrev Out := Host.Outcome State Fault Refusal

/-- Registers all zero (R41, the spec's decision D10; log 2). -/
def Regs.zero : Regs :=
  { eax := 0, ecx := 0, edx := 0, ebx := 0, esp := 0, ebp := 0, esi := 0, edi := 0 }

/-- The processor state as created from its three inputs (R310, R43), memory all zero (R42). -/
def State.create (memSize : Nat) (initPc initSp : Word) : State :=
  { regs := { Regs.zero with esp := initSp }
    flags := 0
    pc := initPc
    mem := { size := memSize, cells := [] }
    runState := .running
    input := []
    output := []
    freeCount := 0 }

/-- The machine right after reset, with the parameter values of Config (log 1) and no image: a
program is placed from outside (log 10). `State.boot` gives every other reset. -/
def State.reset : State := State.create Config.memSize Config.initPc Config.initSp

end Sys2Proof.Machine
end

