-- ==== Sys2Proof/Machine/Ops.lean ====
section
/-! DEFINITION. The named operations over registers, memory, stack and ports, and entering the fatal
run state. -/

namespace Sys2Proof.Machine

/-! ### General registers (R14, R22) -/

/-- `x[i]`. -/
def Regs.get (x : Regs) : Reg32 → Word
  | .eax => x.eax
  | .ecx => x.ecx
  | .edx => x.edx
  | .ebx => x.ebx
  | .esp => x.esp
  | .ebp => x.ebp
  | .esi => x.esi
  | .edi => x.edi

/-- `x[i] <- v`. -/
def Regs.set (x : Regs) (r : Reg32) (v : Word) : Regs :=
  match r with
  | .eax => { x with eax := v }
  | .ecx => { x with ecx := v }
  | .edx => { x with edx := v }
  | .ebx => { x with ebx := v }
  | .esp => { x with esp := v }
  | .ebp => { x with ebp := v }
  | .esi => { x with esi := v }
  | .edi => { x with edi := v }

/-! ### 8-bit views (R23 to R25) -/

/-- The 32-bit register an 8-bit view lies in. -/
def reg8Parent : Reg8 → Reg32
  | .al => .eax
  | .cl => .ecx
  | .dl => .edx
  | .bl => .ebx
  | .ah => .eax
  | .ch => .ecx
  | .dh => .edx
  | .bh => .ebx

/-- Whether a view is the second byte (bits 15 to 8) of its parent, not the low byte. -/
def reg8IsHigh : Reg8 → Bool
  | .al => false
  | .cl => false
  | .dl => false
  | .bl => false
  | .ah => true
  | .ch => true
  | .dh => true
  | .bh => true

/-- R23: the byte a view shows of its parent's value. -/
def viewByte (high : Bool) (w : Word) : Byte :=
  if high then w.extractLsb' 8 8 else w.extractLsb' 0 8

/-- R24: the parent's value with one view's byte replaced. -/
def withViewByte (high : Bool) (w : Word) (v : Byte) : Word :=
  if high then w.extractLsb' 16 16 ++ v ++ w.extractLsb' 0 8 else w.extractLsb' 8 24 ++ v

/-- R23: `r8[n]`. -/
def Regs.get8 (x : Regs) (r : Reg8) : Byte := viewByte (reg8IsHigh r) (x.get (reg8Parent r))

/-- R24: `r8[n] <- v`. -/
def Regs.set8 (x : Regs) (r : Reg8) (v : Byte) : Regs :=
  x.set (reg8Parent r) (withViewByte (reg8IsHigh r) (x.get (reg8Parent r)) v)

/-! ### State access (R14) -/

/-- `x[i]`. -/
def State.reg (s : State) (r : Reg32) : Word := s.regs.get r

/-- `x[i] <- v`. -/
def State.setReg (s : State) (r : Reg32) (v : Word) : State := { s with regs := s.regs.set r v }

/-- `r8[n]`. -/
def State.reg8 (s : State) (r : Reg8) : Byte := s.regs.get8 r

/-- `r8[n] <- v`. -/
def State.setReg8 (s : State) (r : Reg8) (v : Byte) : State := { s with regs := s.regs.set8 r v }

/-- `pc <- t`. -/
def State.setPc (s : State) (t : Word) : State := { s with pc := t }

/-- The flags word replaced; which bits change is Flags.lean's matter. -/
def State.setFlags (s : State) (f : Word) : State := { s with flags := f }

/-- The memory replaced. -/
def State.setMem (s : State) (m : Memory) : State := { s with mem := m }

/-- The run state replaced (R38). -/
def State.setRunState (s : State) (r : RunState) : State := { s with runState := r }

/-- The device's pending bytes replaced (R255). -/
def State.setInput (s : State) (bs : List Byte) : State := { s with input := bs }

/-- One more byte on the output stream (R256). -/
def State.emit (s : State) (v : Byte) : State := { s with output := s.output ++ [v] }

/-! ### Memory (R50 to R60) -/

/-- The byte listed at `a`, or what an unlisted address reads as. -/
def cellsGet : List Host.Cell → Nat → Byte
  | [], _ => Memory.unlisted
  | c :: cs, a => if c.1 = a then c.2 else cellsGet cs a

/-- The list with `v` at `a`, in canonical form. -/
def cellsSet : List Host.Cell → Nat → Byte → List Host.Cell
  | [], a, v => if v = Memory.unlisted then [] else [(a, v)]
  | c :: cs, a, v =>
    if c.1 < a then c :: cellsSet cs a v
    else if c.1 = a then (if v = Memory.unlisted then cs else (a, v) :: cs)
    else if v = Memory.unlisted then c :: cs
    else (a, v) :: c :: cs

/-- `mem[a]` (R35). -/
def Memory.byte (m : Memory) (a : Nat) : Byte := cellsGet m.cells a

/-- `mem[a] <- v` for an address inside memory; outside there is no byte to write. -/
def Memory.setByte (m : Memory) (a : Nat) (v : Byte) : Memory :=
  if a < m.size then { m with cells := cellsSet m.cells a v } else m

/-- R53 to R55: the smallest of the byte addresses `a`, `a + 1`, up to `a + n - 1` (natural numbers,
no wrap, decision D14) that is at or above `MEM_SIZE`, if there is one. -/
def Memory.firstOutside (m : Memory) (a n : Nat) : Option Nat :=
  if a + n ≤ m.size then none else some (max a m.size)

/-- R53: `MemRead(addr, 1)`. -/
def Memory.read8 (m : Memory) (addr : Word) : Except Fatal Byte :=
  match m.firstOutside addr.toNat 1 with
  | some a => .error (.outOfBounds a)
  | none => .ok (m.byte addr.toNat)

/-- R53: `MemRead(addr, 4)`, little-endian (R51). -/
def Memory.read32 (m : Memory) (addr : Word) : Except Fatal Word :=
  let a := addr.toNat
  match m.firstOutside a 4 with
  | some b => .error (.outOfBounds b)
  | none => .ok (le32 (m.byte a) (m.byte (a + 1)) (m.byte (a + 2)) (m.byte (a + 3)))

/-- R54: `MemWrite(addr, 1, v)`. -/
def Memory.write8 (m : Memory) (addr : Word) (v : Byte) : Except Fatal Memory :=
  match m.firstOutside addr.toNat 1 with
  | some a => .error (.outOfBounds a)
  | none => .ok (m.setByte addr.toNat v)

/-- The four bytes of `v` at `a` to `a + 3`, in the order of R54. -/
def Memory.setWord (m : Memory) (a : Nat) (v : Word) : Memory :=
  (((m.setByte a (byteOf v 0)).setByte (a + 1) (byteOf v 1)).setByte (a + 2) (byteOf v 2)).setByte
    (a + 3) (byteOf v 3)

/-- R54: `MemWrite(addr, 4, v)`, little-endian (R51). -/
def Memory.write32 (m : Memory) (addr : Word) (v : Word) : Except Fatal Memory :=
  match m.firstOutside addr.toNat 4 with
  | some a => .error (.outOfBounds a)
  | none => .ok (m.setWord addr.toNat v)

/-- A list of byte stores, first to last; those outside memory do nothing. -/
def Memory.applyStores (m : Memory) : List (Nat × Byte) → Memory
  | [] => m
  | c :: cs => (m.setByte c.1 c.2).applyStores cs

/-- `MemRead(addr, 1)` in a state. -/
def State.load8 (s : State) (addr : Word) : Except Fatal Byte := s.mem.read8 addr

/-- `MemRead(addr, 4)` in a state. -/
def State.load32 (s : State) (addr : Word) : Except Fatal Word := s.mem.read32 addr

/-- `MemWrite(addr, 1, v)` in a state. -/
def State.store8 (s : State) (addr : Word) (v : Byte) : Except Fatal State :=
  (s.mem.write8 addr v).map s.setMem

/-- `MemWrite(addr, 4, v)` in a state. -/
def State.store32 (s : State) (addr : Word) (v : Word) : Except Fatal State :=
  (s.mem.write32 addr v).map s.setMem

/-! ### Stack (R230, R231) -/

/-- R230: `Push32(v)`: ESP falls by 4, then the store at the new ESP. -/
def State.push32 (s : State) (v : Word) : Except Fatal State :=
  let s := s.setReg .esp (s.reg .esp - 4)
  s.store32 (s.reg .esp) v

/-- R231: `Pop32()`: the load at ESP, then ESP rises by 4. -/
def State.pop32 (s : State) : Except Fatal (Word × State) :=
  (s.load32 (s.reg .esp)).map fun t => (t, s.setReg .esp (s.reg .esp + 4))

/-! ### Ports (R252 to R257) -/

/-- R254: the one port with a device. -/
def devicePort : BitVec 16 := 0x3F8

/-- R252: `IoRead(port)`. An absent port reads 0. The device supplies its next byte; when it has
none the read does not complete (R255). -/
def State.ioRead (s : State) (port : BitVec 16) : Except Fault (Byte × State) :=
  if port = devicePort then
    match s.input with
    | [] => .error .blockedOnInput
    | b :: bs => .ok (b, s.setInput bs)
  else .ok (0, s)

/-- R253: `IoWrite(port, v)`. The device takes the byte; an absent port discards it. -/
def State.ioWrite (s : State) (port : BitVec 16) (v : Byte) : State :=
  if port = devicePort then s.emit v else s

/-! ### How an instruction ends -/

/-- An instruction that completes or raises a fatal condition (R16). -/
def complete : Except Fatal State → Out
  | .ok t => .next t
  | .error c => .fault (.fatal c)

/-- R270: entering the fatal run state, the one exception mechanism of the engine (R278): the cause
and info are recorded, nothing is saved and control goes nowhere. The registers, flags, program
counter and memory contents become free values, since "the values of `x`, `flags`, `pc` and `mem`
after a fatal outcome" are unspecified and no claim may read them (log 3). -/
def State.enterFatal (s : State) (c : Fatal) : State :=
  let n := s.freeCount
  { s with
    runState := .fatal c
    regs :=
      { eax := Config.fatalReg n 0, ecx := Config.fatalReg n 1, edx := Config.fatalReg n 2,
        ebx := Config.fatalReg n 3, esp := Config.fatalReg n 4, ebp := Config.fatalReg n 5,
        esi := Config.fatalReg n 6, edi := Config.fatalReg n 7 }
    flags := Config.fatalFlags n
    pc := Config.fatalPc n
    mem := s.mem.applyStores (Config.fatalStores n)
    freeCount := n + 1 }

/-- R274: the cause codes. -/
def Fatal.code : Fatal → Nat
  | .unsupportedOpcode _ _ => 1
  | .unsupportedAddressing _ _ => 2
  | .outOfBounds _ => 3

end Sys2Proof.Machine
end

