-- ==== Sys2Proof/Machine/Flags.lean ====
section
/-! DEFINITION. The flags codec (R26, R27), the flag engine (R170) and the jump conditions (R203). -/

namespace Sys2Proof.Machine

/-- R26: the bit of the carry flag. -/
def cfBit : Nat := 0
/-- R26: the bit of the zero flag. -/
def zfBit : Nat := 6
/-- R26: the bit of the sign flag. -/
def sfBit : Nat := 7
/-- R26: the bit of the overflow flag. -/
def ofBit : Nat := 11

/-- R26: CF. -/
def carryFlag (f : Word) : Bool := f.getLsbD cfBit
/-- R26: ZF. -/
def zeroFlag (f : Word) : Bool := f.getLsbD zfBit
/-- R26: SF. -/
def signFlag (f : Word) : Bool := f.getLsbD sfBit
/-- R26: OF. -/
def overflowFlag (f : Word) : Bool := f.getLsbD ofBit

/-- R27: one bit of the flags word replaced, the other 31 left. -/
def putBit (f : Word) (k : Nat) (b : Bool) : Word :=
  if b then f ||| BitVec.twoPow 32 k else f &&& ~~~ BitVec.twoPow 32 k

/-- R170: the 64-bit difference in which the borrow is bit 32. -/
def wideSub (a b : Word) : BitVec 64 := a.setWidth 64 - b.setWidth 64

/-- R170: CF, "borrow occurred". -/
def subCarry (a b : Word) : Bool := (wideSub a b).getLsbD 32
/-- R170: the truncated result. -/
def subResult (a b : Word) : Word := (wideSub a b).setWidth 32
/-- R170: ZF. -/
def subZero (a b : Word) : Bool := subResult a b == 0
/-- R170: SF. -/
def subSign (a b : Word) : Bool := (subResult a b).getLsbD 31
/-- R170: OF. -/
def subOverflow (a b : Word) : Bool :=
  (a.getLsbD 31 != b.getLsbD 31) && (a.getLsbD 31 != (subResult a b).getLsbD 31)

/-- R170: the flags word after `compute_sub_flags(a, b)`; the 28 inert bits stay (R27). -/
def subFlags (a b f : Word) : Word :=
  putBit (putBit (putBit (putBit f cfBit (subCarry a b)) zfBit (subZero a b)) sfBit (subSign a b))
    ofBit (subOverflow a b)

/-- R170: `compute_sub_flags(a, b)` on a state. -/
def State.computeSubFlags (s : State) (a b : Word) : State := s.setFlags (subFlags a b s.flags)

/-! ### The seven conditions (R203) -/

/-- R203: overflow. -/
def condOverflow (f : Word) : Bool := overflowFlag f
/-- R203: carry. -/
def condCarry (f : Word) : Bool := carryFlag f
/-- R203: zero. -/
def condZero (f : Word) : Bool := zeroFlag f
/-- R203: carry-or-zero (below or equal). -/
def condBelowEqual (f : Word) : Bool := carryFlag f || zeroFlag f
/-- R203: sign. -/
def condSign (f : Word) : Bool := signFlag f
/-- R203: sign-xor-overflow (less). -/
def condLess (f : Word) : Bool := signFlag f != overflowFlag f
/-- R203: zero-or-(sign-xor-overflow) (less or equal). -/
def condLessEqual (f : Word) : Bool := zeroFlag f || (signFlag f != overflowFlag f)

end Sys2Proof.Machine
end

