-- ==== Sys2Proof/Machine/Operands.lean ====
section
/-! DEFINITION. Effective addresses and the uniform operand accessors (R124 to R133). -/

namespace Sys2Proof.Machine

/-- R125: `EffectiveAddress(d)`. Sums wrap modulo 2^32. The SIB forms are fatal, with the ModRM
byte's mode and rm as info (R272). Register-direct cannot reach it: it is no `MemRef` (R127). -/
def State.effectiveAddress (s : State) : MemRef → Except Fatal Word
  | .base b => .ok (s.reg b)
  | .disp d => .ok d
  | .baseDisp8 b d => .ok (s.reg b + sext32 d)
  | .baseDisp32 b d => .ok (s.reg b + d)
  | .sib _ => .error (.unsupportedAddressing 0 4)
  | .sibDisp8 _ _ => .error (.unsupportedAddressing 1 4)
  | .sibDisp32 _ _ => .error (.unsupportedAddressing 2 4)

/-- R128: `ReadRM32(d)`. -/
def State.readRM32 (s : State) : RM Reg32 → Except Fatal Word
  | .reg r => .ok (s.reg r)
  | .mem m => (s.effectiveAddress m).bind s.load32

/-- R129: `WriteRM32(d, v)`. -/
def State.writeRM32 (s : State) (d : RM Reg32) (v : Word) : Except Fatal State :=
  match d with
  | .reg r => .ok (s.setReg r v)
  | .mem m => (s.effectiveAddress m).bind fun a => s.store32 a v

/-- R130: `ReadRM8(d)`. -/
def State.readRM8 (s : State) : RM Reg8 → Except Fatal Byte
  | .reg r => .ok (s.reg8 r)
  | .mem m => (s.effectiveAddress m).bind s.load8

/-- R131: `WriteRM8(d, v)`. -/
def State.writeRM8 (s : State) (d : RM Reg8) (v : Byte) : Except Fatal State :=
  match d with
  | .reg r => .ok (s.setReg8 r v)
  | .mem m => (s.effectiveAddress m).bind fun a => s.store8 a v

/-- A read-modify-write of an `rm32` operand (R133). -/
def State.updateRM32 (s : State) (d : RM Reg32) (f : Word → Word) : Except Fatal State :=
  (s.readRM32 d).bind fun v => s.writeRM32 d (f v)

end Sys2Proof.Machine
end

