-- ==== Sys2Proof/Machine/Arithmetic.lean ====
section
/-! DEFINITION. ADD, SUB, CMP, INC and DEC (42_arithmetic_compare.md). Only SUB and CMP write flags
(R28). -/

namespace Sys2Proof.Machine

/-- R173: ADD rm32, r32. -/
def execAddRm32R32 (d : RM Reg32) (r : Reg32) (s : State) : Out :=
  complete (s.updateRM32 d (· + s.reg r))

/-- R175: ADD rm32, imm8, the immediate sign-extended (R86). -/
def execAddRm32Imm8 (d : RM Reg32) (imm : Byte) (s : State) : Out :=
  complete (s.updateRM32 d (· + sext32 imm))

/-- R176: SUB rm32, imm8: the difference is stored, then the flags are written from the old operand
value. -/
def execSubRm32Imm8 (d : RM Reg32) (imm : Byte) (s : State) : Out :=
  complete ((s.readRM32 d).bind fun a =>
    (s.writeRM32 d (a - sext32 imm)).map (·.computeSubFlags a (sext32 imm)))

/-- R177: CMP rm32, imm8. Nothing is stored. -/
def execCmpRm32Imm8 (d : RM Reg32) (imm : Byte) (s : State) : Out :=
  complete ((s.readRM32 d).map fun a => s.computeSubFlags a (sext32 imm))

/-- R178: CMP r32, rm32. Nothing is stored. -/
def execCmpR32Rm32 (r : Reg32) (d : RM Reg32) (s : State) : Out :=
  complete ((s.readRM32 d).map fun b => s.computeSubFlags (s.reg r) b)

/-- R180: INC rm32. -/
def execIncRm32 (d : RM Reg32) (s : State) : Out := complete (s.updateRM32 d (· + 1))

/-- R181: DEC rm32. -/
def execDecRm32 (d : RM Reg32) (s : State) : Out := complete (s.updateRM32 d (· - 1))

end Sys2Proof.Machine
end

