-- ==== Sys2Proof/Machine/ControlTransfer.lean ====
section
/-! DEFINITION. JMP, the fourteen conditional jumps, CALL and RET (43_control_transfer.md). `s.pc`
is `pc0` plus the instruction's length, so adding `rel` gives the target of R200. -/

namespace Sys2Proof.Machine

/-- R200: `pc <- pc + rel`, modulo 2^32. -/
def State.jump (s : State) (rel : Word) : State := s.setPc (s.pc + rel)

/-- R203: the common body of the conditional jumps. -/
def State.jumpIf (s : State) (cond : Bool) (rel : Byte) : State :=
  if cond then s.jump (sext32 rel) else s

/-- R201: JMP rel8. -/
def execJmpRel8 (rel : Byte) (s : State) : Out := .next (s.jump (sext32 rel))

/-- R202: JMP rel32. -/
def execJmpRel32 (rel : Word) (s : State) : Out := .next (s.jump rel)

/-- R204: JO, OF = 1. -/
def execJoRel8 (rel : Byte) (s : State) : Out := .next (s.jumpIf (condOverflow s.flags) rel)

/-- R205: JNO, OF = 0. -/
def execJnoRel8 (rel : Byte) (s : State) : Out := .next (s.jumpIf (!condOverflow s.flags) rel)

/-- R206: JC, CF = 1. -/
def execJcRel8 (rel : Byte) (s : State) : Out := .next (s.jumpIf (condCarry s.flags) rel)

/-- R207: JNC, CF = 0. -/
def execJncRel8 (rel : Byte) (s : State) : Out := .next (s.jumpIf (!condCarry s.flags) rel)

/-- R208: JZ, ZF = 1. -/
def execJzRel8 (rel : Byte) (s : State) : Out := .next (s.jumpIf (condZero s.flags) rel)

/-- R209: JNZ, ZF = 0. -/
def execJnzRel8 (rel : Byte) (s : State) : Out := .next (s.jumpIf (!condZero s.flags) rel)

/-- R210: JBE, CF = 1 or ZF = 1. -/
def execJbeRel8 (rel : Byte) (s : State) : Out := .next (s.jumpIf (condBelowEqual s.flags) rel)

/-- R211: JA, CF = 0 and ZF = 0. -/
def execJaRel8 (rel : Byte) (s : State) : Out := .next (s.jumpIf (!condBelowEqual s.flags) rel)

/-- R212: JS, SF = 1. -/
def execJsRel8 (rel : Byte) (s : State) : Out := .next (s.jumpIf (condSign s.flags) rel)

/-- R213: JNS, SF = 0. -/
def execJnsRel8 (rel : Byte) (s : State) : Out := .next (s.jumpIf (!condSign s.flags) rel)

/-- R214: JL, SF != OF. -/
def execJlRel8 (rel : Byte) (s : State) : Out := .next (s.jumpIf (condLess s.flags) rel)

/-- R215: JGE, SF = OF. -/
def execJgeRel8 (rel : Byte) (s : State) : Out := .next (s.jumpIf (!condLess s.flags) rel)

/-- R216: JLE, ZF = 1 or SF != OF. -/
def execJleRel8 (rel : Byte) (s : State) : Out := .next (s.jumpIf (condLessEqual s.flags) rel)

/-- R217: JG, ZF = 0 and SF = OF. -/
def execJgRel8 (rel : Byte) (s : State) : Out := .next (s.jumpIf (!condLessEqual s.flags) rel)

/-- R218: CALL rel32: the address after the instruction is pushed, then the transfer. -/
def execCallRel32 (rel : Word) (s : State) : Out :=
  complete ((s.push32 s.pc).map (·.jump rel))

/-- R219: RET: the popped value is the new program counter. -/
def execRet (s : State) : Out := complete (s.pop32.map fun p => p.2.setPc p.1)

end Sys2Proof.Machine
end

