-- ==== Sys2Proof/Machine/DataMovement.lean ====
section
/-! DEFINITION. The six MOV forms (41_data_movement.md). In every meaning `s.pc` is already the
address after the instruction's last byte, as R31 says of the point where all bytes are fetched. -/

namespace Sys2Proof.Machine

/-- R152: MOV rm8, r8. -/
def execMovRm8R8 (d : RM Reg8) (r : Reg8) (s : State) : Out := complete (s.writeRM8 d (s.reg8 r))

/-- R153: MOV rm32, r32. -/
def execMovRm32R32 (d : RM Reg32) (r : Reg32) (s : State) : Out :=
  complete (s.writeRM32 d (s.reg r))

/-- R154: MOV r8, rm8. The loaded byte is not extended. -/
def execMovR8Rm8 (r : Reg8) (d : RM Reg8) (s : State) : Out :=
  complete ((s.readRM8 d).map (s.setReg8 r))

/-- R155: MOV r32, rm32. -/
def execMovR32Rm32 (r : Reg32) (d : RM Reg32) (s : State) : Out :=
  complete ((s.readRM32 d).map (s.setReg r))

/-- R150: MOV r8, imm8. -/
def execMovR8Imm8 (r : Reg8) (imm : Byte) (s : State) : Out := .next (s.setReg8 r imm)

/-- R151: MOV r32, imm32. -/
def execMovR32Imm32 (r : Reg32) (imm : Word) (s : State) : Out := .next (s.setReg r imm)

end Sys2Proof.Machine
end

