-- ==== Sys2Proof/Machine/PortIo.lean ====
section
/-! DEFINITION. IN and OUT (45_io.md), and the rendering of the output stream (R256). -/

namespace Sys2Proof.Machine

/-- R250, R251: the port address, the low 16 bits of EDX. -/
def State.port (s : State) : BitVec 16 := (s.reg .edx).setWidth 16

/-- R250: IN AL, DX. Only AL of EAX changes. -/
def execInAlDx (s : State) : Out :=
  match s.ioRead s.port with
  | .ok (v, t) => .next (t.setReg8 .al v)
  | .error f => .fault f

/-- R251: OUT DX, AL. -/
def execOutDxAl (s : State) : Out := .next (s.ioWrite s.port (s.reg8 .al))

/-- What the device shows for a byte (R256): the character, or one hexadecimal digit given by its
value, since the case of the digits is not stated (decision D17). -/
inductive Glyph where
  | char (v : Byte)
  | hexDigit (d : BitVec 4)
deriving DecidableEq, Repr

/-- R256: one byte of output as shown. -/
def renderByte (v : Byte) : List Glyph :=
  if Config.isPrintable v then [.char v] else [.hexDigit (v.extractLsb' 4 4), .hexDigit (v.extractLsb' 0 4)]

/-- R256: the external output stream as shown, with no separator. -/
def State.rendered (s : State) : List Glyph := s.output.flatMap renderByte

end Sys2Proof.Machine
end

