-- ==== Sys2Proof/Machine/Stack.lean ====
section
/-! DEFINITION. PUSH, POP and LEAVE (44_stack.md). -/

namespace Sys2Proof.Machine

/-- R233: PUSH r32. The register is read before ESP changes, so PUSH ESP stores the old ESP. -/
def execPushR32 (r : Reg32) (s : State) : Out := complete (s.push32 (s.reg r))

/-- R234: POP r32. The register is written after ESP rises, so POP ESP leaves the loaded value. -/
def execPopR32 (r : Reg32) (s : State) : Out := complete (s.pop32.map fun p => p.2.setReg r p.1)

/-- R236: LEAVE: ESP takes EBP's value, then EBP is popped. -/
def execLeave (s : State) : Out :=
  complete ((s.setReg .esp (s.reg .ebp)).pop32.map fun p => p.2.setReg .ebp p.1)

end Sys2Proof.Machine
end

