-- ==== Sys2Proof/Machine/Dispatch.lean ====
section
/-! DEFINITION. One arm for each instruction, each a direct call of its meaning. -/

namespace Sys2Proof.Machine

def exec (i : Instr) (s : State) : Host.Outcome State Fault Refusal :=
  match i with
  | .addRm32R32 d r => Sys2Proof.Machine.execAddRm32R32 d r s
  | .cmpR32Rm32 r d => Sys2Proof.Machine.execCmpR32Rm32 r d s
  | .pushR32 r => Sys2Proof.Machine.execPushR32 r s
  | .popR32 r => Sys2Proof.Machine.execPopR32 r s
  | .joRel8 rel => Sys2Proof.Machine.execJoRel8 rel s
  | .jnoRel8 rel => Sys2Proof.Machine.execJnoRel8 rel s
  | .jcRel8 rel => Sys2Proof.Machine.execJcRel8 rel s
  | .jncRel8 rel => Sys2Proof.Machine.execJncRel8 rel s
  | .jzRel8 rel => Sys2Proof.Machine.execJzRel8 rel s
  | .jnzRel8 rel => Sys2Proof.Machine.execJnzRel8 rel s
  | .jbeRel8 rel => Sys2Proof.Machine.execJbeRel8 rel s
  | .jaRel8 rel => Sys2Proof.Machine.execJaRel8 rel s
  | .jsRel8 rel => Sys2Proof.Machine.execJsRel8 rel s
  | .jnsRel8 rel => Sys2Proof.Machine.execJnsRel8 rel s
  | .jlRel8 rel => Sys2Proof.Machine.execJlRel8 rel s
  | .jgeRel8 rel => Sys2Proof.Machine.execJgeRel8 rel s
  | .jleRel8 rel => Sys2Proof.Machine.execJleRel8 rel s
  | .jgRel8 rel => Sys2Proof.Machine.execJgRel8 rel s
  | .addRm32Imm8 d imm => Sys2Proof.Machine.execAddRm32Imm8 d imm s
  | .subRm32Imm8 d imm => Sys2Proof.Machine.execSubRm32Imm8 d imm s
  | .cmpRm32Imm8 d imm => Sys2Proof.Machine.execCmpRm32Imm8 d imm s
  | .movRm8R8 d r => Sys2Proof.Machine.execMovRm8R8 d r s
  | .movRm32R32 d r => Sys2Proof.Machine.execMovRm32R32 d r s
  | .movR8Rm8 r d => Sys2Proof.Machine.execMovR8Rm8 r d s
  | .movR32Rm32 r d => Sys2Proof.Machine.execMovR32Rm32 r d s
  | .movR8Imm8 r imm => Sys2Proof.Machine.execMovR8Imm8 r imm s
  | .movR32Imm32 r imm => Sys2Proof.Machine.execMovR32Imm32 r imm s
  | .ret => Sys2Proof.Machine.execRet s
  | .leave => Sys2Proof.Machine.execLeave s
  | .callRel32 rel => Sys2Proof.Machine.execCallRel32 rel s
  | .jmpRel32 rel => Sys2Proof.Machine.execJmpRel32 rel s
  | .jmpRel8 rel => Sys2Proof.Machine.execJmpRel8 rel s
  | .inAlDx => Sys2Proof.Machine.execInAlDx s
  | .outDxAl => Sys2Proof.Machine.execOutDxAl s
  | .incRm32 d => Sys2Proof.Machine.execIncRm32 d s
  | .decRm32 d => Sys2Proof.Machine.execDecRm32 d s

end Sys2Proof.Machine
end

