-- ==== Sys2Proof/Machine/Fetch.lean ====
section
/-! DEFINITION. Fetching an instruction from memory at the program counter: the decoder's fetches as
`Fetch8` and `Fetch32` (R15), each one `MemRead` after which `pc` advances modulo 2^32. -/

namespace Sys2Proof.Machine

/-- A fetch program run at `pc`: its result and the program counter after the last byte, or the
first fatal condition in the order of R277 (1) to (5). -/
def runFetch {α : Type} (m : Memory) : Fetch α → Word → Except Fatal (α × Word)
  | .done a, pc => .ok (a, pc)
  | .reject op sel, _ => .error (.unsupportedOpcode op sel)
  | .need8 k, pc =>
    match m.read8 pc with
    | .ok b => runFetch m (k b) (pc + 1)
    | .error c => .error c
  | .need32 k, pc =>
    match m.read32 pc with
    | .ok w => runFetch m (k w) (pc + 4)
    | .error c => .error c

/-- The instruction at `pc` and the address after it. -/
def fetchInstr (m : Memory) (pc : Word) : Except Fatal (Instr × Word) := runFetch m decodeInstr pc

/-- Bytes placed at `pc` and on, the address of each wrapping as `pc` does (R30). Used to place an
instruction from outside; it is no action of the engine. -/
def placeBytes (m : Memory) (pc : Word) : List Byte → Memory
  | [] => m
  | b :: bs => placeBytes (m.setByte pc.toNat b) (pc + 1) bs

end Sys2Proof.Machine
end

