-- ==== Sys2Proof/Machine/Sequencer.lean ====
section
/-! DEFINITION. What a step does around an instruction (R315, R316, R270), the reset with every
parameter (R310 to R314), and the diagnostic dump (R290). -/

namespace Sys2Proof.Machine

/-- R316: the sentinel test after a completed instruction: `pc = 0` stops the run. -/
def State.checkSentinel (t : State) : State := if t.pc = 0 then t.setRunState .stopped else t

/-- R315: the end of a step that began in `s` and whose instruction answered `o`. A completed
instruction is followed by the sentinel test; a raised fatal condition enters the fatal run state
(R270); an IN without a byte has no successor state (R255). -/
def afterInstr (s : State) (o : Out) : Out :=
  match o with
  | .next t => .next t.checkSentinel
  | .fault (.fatal c) => .next (s.enterFatal c)
  | .fault .blockedOnInput => .fault .blockedOnInput
  | .refused r => .refused r

/-- The inputs of a reset (R8, R10). -/
structure BootParams where
  /-- `MEM_SIZE` -/
  memSize : Nat
  /-- `INIT_PC` -/
  initPc : Word
  /-- `INIT_SP` -/
  initSp : Word
  /-- `LOAD_ADDR` -/
  loadAddr : Nat
  /-- `IMAGE` -/
  image : List Byte
  /-- `input_stream` -/
  input : List Byte
deriving DecidableEq, Repr

/-- R42, R312: the image copied to `a` and on. -/
def Memory.loadImage (m : Memory) (a : Nat) : List Byte → Memory
  | [] => m
  | b :: bs => (m.setByte a b).loadImage (a + 1) bs

/-- R310 to R314: reset from its inputs. The configurations that U12 and U13 say to refuse are
refused (log 7). -/
def State.boot (p : BootParams) : Except Refusal State :=
  if p.memSize = 0 ∨ 2 ^ 32 < p.memSize then .error .memSizeOutOfRange
  else if p.initPc = 0 then .error .initPcZero
  else if p.memSize < p.loadAddr + p.image.length then .error .imageDoesNotFit
  else
    let s := State.create p.memSize p.initPc p.initSp
    .ok ((s.setMem (s.mem.loadImage p.loadAddr p.image)).setInput p.input)

/-- R290: the diagnostic dump of a state: the program counter, the eight registers in index order,
the flags word. It has no text format (decision D26, log 8). -/
structure Dump where
  pc : Word
  regs : List Word
  flags : Word
deriving DecidableEq, Repr

/-- R290: "For a model, the dump is the function (pc, x[0..7], flags) of the final state." -/
def State.dump (s : State) : Dump :=
  { pc := s.pc
    regs := [.eax, .ecx, .edx, .ebx, .esp, .ebp, .esi, .edi].map s.reg
    flags := s.flags }

end Sys2Proof.Machine
end

