-- ==== Sys2Proof/Machine/Step.lean ====
section
/-! DEFINITION. One step of the engine (R315), and placing one instruction where it fetches. -/

namespace Sys2Proof.Machine

/-- R315, R318: one step. -/
def step (s : State) : Host.Outcome State Fault Refusal :=
  match s.runState with
  | .running =>
    match fetchInstr s.mem s.pc with
    | .ok (i, next) => afterInstr s (exec i (s.setPc next))
    | .error c => .next (s.enterFatal c)
  | .stopped => .next s
  | .fatal _ => .next s

/-- `s` with the instruction that the opcode table's numbering gives as `w` (R104) placed at the
program counter, and running, so that the next step runs it (log 10). -/
def State.withFetchWord (s : State) (nbits w : Nat) : State :=
  (s.setMem (placeBytes s.mem s.pc (tableBytes nbits w))).setRunState .running

end Sys2Proof.Machine
end

