-- ==== Sys2Proof/Safety.lean ====
section
/-! DEFINITION. The terms claims are stated in: a safe state, the invariant every step keeps, what
it means for code to stand in memory, and the parts of a frame. -/

namespace Sys2Proof.Machine

/-- R270: "a run that reaches `Fatal` has gone wrong, whatever the state." -/
def State.isFatal (s : State) : Bool :=
  match s.runState with
  | .running => false
  | .stopped => false
  | .fatal _ => true

/-- A run of `k` steps from `s` is safe when no state it goes through is fatal. A step without a
successor (R255) ends the run safely. -/
def safeRun : Nat → State → Bool
  | 0, s => !s.isFatal
  | k + 1, s =>
    !s.isFatal &&
      match step s with
      | .next t => safeRun k t
      | .fault _ => true
      | .refused _ => true

/-- R26: whether bit `k` of the flags word is one of CF, ZF, SF, OF. -/
def isFlagBit (k : Nat) : Bool := k == 0 || k == 6 || k == 7 || k == 11

/-- R29: the inert bits of a flags word, which hold their reset value 0. -/
def inertZero (f : Word) : Prop := ∀ k, isFlagBit k = false → f.getLsbD k = false

/-- Two flags words agree on CF, ZF, SF and OF. -/
def sameFlagBits (f g : Word) : Prop := ∀ k, isFlagBit k = true → f.getLsbD k = g.getLsbD k

/-- What every step keeps: the memory is in canonical form and of a legal size (R10); a running
engine is not at the sentinel and a stopped one is (R316); outside a fatal state the inert flag
bits are 0 (R29). -/
structure State.Inv (s : State) : Prop where
  mem_wf : s.mem.wf
  size_pos : 1 ≤ s.mem.size
  size_le : s.mem.size ≤ 2 ^ 32
  running_pc : s.runState = .running → s.pc ≠ 0
  stopped_pc : s.runState = .stopped → s.pc = 0
  inert : s.isFatal = false → inertZero s.flags

/-- The bytes `bs` stand at `a`, `a + 1` and on, all inside memory. -/
abbrev Memory.holds (m : Memory) (a : Nat) (bs : List Byte) : Prop :=
  a + bs.length ≤ m.size ∧ ∀ k (h : k < bs.length), m.byte (a + k) = bs[k]

/-- The 32-bit value at `a`, little-endian (R51). -/
def Memory.wordAt (m : Memory) (a : Nat) : Word :=
  le32 (m.byte a) (m.byte (a + 1)) (m.byte (a + 2)) (m.byte (a + 3))

/-! ### Parts of a frame -/

/-- Every general register but those of `qs` is unchanged. -/
def regsSameBut (s t : State) (qs : List Reg32) : Prop := ∀ r, r ∉ qs → t.reg r = s.reg r

/-- Every byte of memory outside the `n` bytes at `a` reads as before. -/
def memSameOutside (s t : State) (a n : Nat) : Prop :=
  ∀ x, x < a ∨ a + n ≤ x → t.mem.byte x = s.mem.byte x

/-- The run state, the memory size and the model's counter are unchanged. -/
def engineSame (s t : State) : Prop :=
  t.runState = s.runState ∧ t.mem.size = s.mem.size ∧ t.freeCount = s.freeCount

/-- The port device's streams are unchanged. -/
def streamsSame (s t : State) : Prop := t.input = s.input ∧ t.output = s.output

/-- All state but the general registers, the flags, the program counter and the memory contents. -/
def restSame (s t : State) : Prop := engineSame s t ∧ streamsSame s t

/-- `i` completes from `s` with the 32-bit register `q` at `v`, the flags word at `f`, and nothing
else changed. -/
def completesInReg (i : Instr) (s : State) (q : Reg32) (v f : Word) : Prop :=
  ∃ t, exec i s = .next t ∧ t.reg q = v ∧ regsSameBut s t [q] ∧ t.flags = f ∧ t.mem = s.mem ∧
    t.pc = s.pc ∧ restSame s t

/-- `i` completes from `s` with the 8-bit view `q` at `v` and nothing else changed: every other view,
every bit above 15 of every register, and ESP, EBP, ESI, EDI read as before. -/
def completesInReg8 (i : Instr) (s : State) (q : Reg8) (v : Byte) : Prop :=
  ∃ t, exec i s = .next t ∧ t.reg8 q = v ∧ (∀ r, r ≠ q → t.reg8 r = s.reg8 r) ∧
    (∀ r k, 16 ≤ k → (t.reg r).getLsbD k = (s.reg r).getLsbD k) ∧
    regsSameBut s t [.eax, .ecx, .edx, .ebx] ∧ t.flags = s.flags ∧ t.mem = s.mem ∧
    t.pc = s.pc ∧ restSame s t

/-- `i` completes from `s` with the four bytes at `a` holding `v`, the flags word at `f`, and nothing
else changed. -/
def completesInMem32 (i : Instr) (s : State) (a : Word) (v f : Word) : Prop :=
  ∃ t, exec i s = .next t ∧ t.mem.wordAt a.toNat = v ∧ memSameOutside s t a.toNat 4 ∧
    regsSameBut s t [] ∧ t.flags = f ∧ t.pc = s.pc ∧ restSame s t

/-- `i` completes from `s` with the byte at `a` holding `v` and nothing else changed. -/
def completesInMem8 (i : Instr) (s : State) (a : Word) (v : Byte) : Prop :=
  ∃ t, exec i s = .next t ∧ t.mem.byte a.toNat = v ∧ memSameOutside s t a.toNat 1 ∧
    regsSameBut s t [] ∧ t.flags = s.flags ∧ t.pc = s.pc ∧ restSame s t

/-- `i` completes from `s` with the flags word at `f` and nothing else changed. -/
def completesInFlags (i : Instr) (s : State) (f : Word) : Prop :=
  ∃ t, exec i s = .next t ∧ t.flags = f ∧ regsSameBut s t [] ∧ t.mem = s.mem ∧ t.pc = s.pc ∧
    restSame s t

/-- An update of an `rm32` operand by `f` completes in both forms: the register of mode 3, or the
four bytes at the effective address. `g` gives the new flags word from the old operand value. -/
def updatesRM32 (i : RM Reg32 → Instr) (s : State) (f g : Word → Word) : Prop :=
  (∀ q, completesInReg (i (.reg q)) s q (f (s.reg q)) (g (s.reg q))) ∧
    ∀ m a, s.effectiveAddress m = .ok a → a.toNat + 4 ≤ s.mem.size →
      completesInMem32 (i (.mem m)) s a (f (s.mem.wordAt a.toNat)) (g (s.mem.wordAt a.toNat))

/-- `b` is the smallest of the `n` byte addresses at `a` that is at or above `MEM_SIZE` (R53). -/
def isFirstOutside (m : Memory) (a n b : Nat) : Prop :=
  a ≤ b ∧ b < a + n ∧ m.size ≤ b ∧ ∀ x, a ≤ x → x < b → x < m.size

/-! ### Kinds of instructions -/

/-- R28: the instructions that write flags. -/
def isFlagWriter : Instr → Bool
  | .subRm32Imm8 _ _ => true
  | .cmpRm32Imm8 _ _ => true
  | .cmpR32Rm32 _ _ => true
  | _ => false

/-- R29: the fourteen conditional jumps. -/
def isConditionalJump : Instr → Bool
  | .joRel8 _ => true
  | .jnoRel8 _ => true
  | .jcRel8 _ => true
  | .jncRel8 _ => true
  | .jzRel8 _ => true
  | .jnzRel8 _ => true
  | .jbeRel8 _ => true
  | .jaRel8 _ => true
  | .jsRel8 _ => true
  | .jnsRel8 _ => true
  | .jlRel8 _ => true
  | .jgeRel8 _ => true
  | .jleRel8 _ => true
  | .jgRel8 _ => true
  | _ => false

/-- The instructions with the `rm32` operand `d` (R57), with any other operands. -/
def rm32Instrs (d : RM Reg32) (r : Reg32) (imm : Byte) : List Instr :=
  [.addRm32R32 d r, .addRm32Imm8 d imm, .subRm32Imm8 d imm, .cmpRm32Imm8 d imm, .cmpR32Rm32 r d,
    .incRm32 d, .decRm32 d, .movRm32R32 d r, .movR32Rm32 r d]

/-- The instructions with the `rm8` operand `d` (R57). -/
def rm8Instrs (d : RM Reg8) (r : Reg8) : List Instr := [.movRm8R8 d r, .movR8Rm8 r d]

end Sys2Proof.Machine
end

