-- ==== Sys2Proof/Certificates/Slice0/Obligations.lean ====
section
/-! DEFINITION. The statements about the model, for the provers. In every statement about `exec`,
`s.pc` is the address after the instruction's last byte, as `step` sets it before `exec` runs
(`StepRunsDecodedInstruction`). A fatal condition is `.fault (.fatal c)` at `exec` and the fatal run
state after `step` (log 11). -/

open Sys2Proof Sys2Proof.Machine

/-! ### Encoding and decoding -/

/-- Decoding the encoding of a well-formed instruction gives it back, whatever follows (R80 to R99).
That a SIB form gives back its SIB byte is the model's choice (log 12). -/
def Obligations.DecodeEncodeRoundTrip : Prop :=
  ∀ (i : Instr) (rest : List Byte), i.wellFormed = true → decode (encode i ++ rest) = .ok i rest

/-- Whatever decodes is the encoding of a well-formed instruction: every bit of an instruction's bytes
is part of the opcode match, a register index, a mode, a displacement or an immediate (R96, with the
fetches of R120 and R121). The SIB byte is R96's one exception; that its bits come back too is the
model's choice, which keeps the byte in the term and never reads it (log 12). -/
def Obligations.EncodeDecodeRoundTrip : Prop :=
  ∀ (bs : List Byte) (i : Instr) (rest : List Byte), decode bs = .ok i rest →
    i.wellFormed = true ∧ bs = encode i ++ rest

/-- Byte strings written out in 95_test_vectors.md decode to the instructions they stand for, one or
more of each family. That the last one's term keeps its SIB byte is the model's choice (log 12). -/
def Obligations.SpecWordsDecode : Prop :=
  decode [0xB4, 0xAB] = .ok (.movR8Imm8 .ah 0xAB) [] ∧
  decode [0x88, 0x6B, 0x01] = .ok (.movRm8R8 (.mem (.baseDisp8 .ebx 1)) .ch) [] ∧
  decode [0x8B, 0x15, 0x00, 0x80, 0x00, 0x00] = .ok (.movR32Rm32 .edx (.mem (.disp 0x8000))) [] ∧
  decode [0x01, 0xC8] = .ok (.addRm32R32 (.reg .eax) .ecx) [] ∧
  decode [0x83, 0x6D, 0xFC, 0x01] = .ok (.subRm32Imm8 (.mem (.baseDisp8 .ebp 0xFC)) 1) [] ∧
  decode [0x3B, 0x8B, 0x00, 0x01, 0x00, 0x00] =
    .ok (.cmpR32Rm32 .ecx (.mem (.baseDisp32 .ebx 0x100))) [] ∧
  decode [0xFF, 0x08] = .ok (.decRm32 (.mem (.base .eax))) [] ∧
  decode [0x75, 0xF9] = .ok (.jnzRel8 0xF9) [] ∧
  decode [0xE9, 0xEA, 0x83, 0xFF, 0xFF] = .ok (.jmpRel32 0xFFFF83EA) [] ∧
  decode [0x55] = .ok (.pushR32 .ebp) [] ∧
  decode [0xEC] = .ok .inAlDx [] ∧
  decode [0x8B, 0x44, 0x24, 0x08] = .ok (.movR32Rm32 .eax (.mem (.sibDisp8 0x24 8))) []

/-- R80: an instruction that completes has 1 to 7 bytes. -/
def Obligations.CompletingInstructionLength : Prop :=
  ∀ (i : Instr) (s t : State), exec i s = .next t → 1 ≤ (encode i).length ∧ (encode i).length ≤ 7

/-- R123: a ModRM byte 0xC0 + 8 g + r, whatever the instruction goes on with (`k`, `k8`), decodes to
register-direct with the same register number and no displacement, in one byte. -/
def Obligations.RegisterDirectModRMDecodes : Prop :=
  ∀ (g r : BitVec 3) (rest : List Byte) (k : RM Reg32 → BitVec 3 → Fetch Instr)
    (k8 : RM Reg8 → BitVec 3 → Fetch Instr),
    let b : Byte := 0xC0 + 8 * g.setWidth 8 + r.setWidth 8
    (decodeModRM Reg32.ofIndex k).runList (b :: rest) =
      (k (.reg (Reg32.ofIndex r)) g).runList rest ∧
    (decodeModRM Reg8.ofIndex k8).runList (b :: rest) =
      (k8 (.reg (Reg8.ofIndex r)) g).runList rest ∧
    (Reg32.ofIndex r).index = r ∧ (Reg8.ofIndex r).index = r

/-! ### The step -/

/-- R315, R31: when the bytes at the program counter decode to `i`, the step is `exec i` with the
program counter past those bytes; then the sentinel test, or the fatal run state, or no successor. -/
def Obligations.StepRunsDecodedInstruction : Prop :=
  ∀ (s : State) (bs rest : List Byte) (i : Instr),
    s.runState = .running → s.mem.size ≤ 2 ^ 32 → s.mem.holds s.pc.toNat bs →
    decode bs = .ok i rest →
    let s1 := s.setPc (s.pc + BitVec.ofNat 32 (bs.length - rest.length))
    (∀ t, exec i s1 = .next t →
      step s = .next (if t.pc = 0 then t.setRunState .stopped else t)) ∧
    (∀ c, exec i s1 = .fault (.fatal c) → ∃ t, step s = .next t ∧ t.runState = .fatal c) ∧
    (exec i s1 = .fault .blockedOnInput → step s = .fault .blockedOnInput)

/-- R97: the 195 first bytes outside the opcode map end the step in Fatal.UnsupportedOpcode. -/
def Obligations.UnsupportedFirstByteIsFatal : Prop :=
  ∀ (s : State), s.runState = .running → s.pc.toNat < s.mem.size →
    let op := (s.mem.byte s.pc.toNat).toNat
    op = 0x00 ∨ (0x02 ≤ op ∧ op ≤ 0x3A) ∨ (0x3C ≤ op ∧ op ≤ 0x4F) ∨ (0x60 ≤ op ∧ op ≤ 0x6F) ∨
      op = 0x7A ∨ op = 0x7B ∨ (0x80 ≤ op ∧ op ≤ 0x82) ∨ (0x84 ≤ op ∧ op ≤ 0x87) ∨
      (0x8C ≤ op ∧ op ≤ 0xAF) ∨ (0xC0 ≤ op ∧ op ≤ 0xC2) ∨ (0xC4 ≤ op ∧ op ≤ 0xC8) ∨
      (0xCA ≤ op ∧ op ≤ 0xE7) ∨ op = 0xEA ∨ op = 0xED ∨ (0xEF ≤ op ∧ op ≤ 0xFE) →
    ∃ t, step s = .next t ∧
      t.runState = .fatal (.unsupportedOpcode (s.mem.byte s.pc.toNat) none)

/-- R98, R94, R95: a group opcode with an unlisted selector is fatal as soon as its descriptor is
fetched: no byte after the descriptor is needed, and a SIB form makes no difference. -/
def Obligations.UnsupportedSelectorIsFatal : Prop :=
  ∀ (s : State) (g : BitVec 3) (d : RM Reg32),
    s.runState = .running → s.mem.size ≤ 2 ^ 32 → d.wellFormed = true →
    (g ≠ 0 → g ≠ 5 → g ≠ 7 → s.mem.holds s.pc.toNat (0x83 :: encodeRM Reg32.index g d) →
      ∃ t, step s = .next t ∧ t.runState = .fatal (.unsupportedOpcode 0x83 (some g))) ∧
    (g ≠ 0 → g ≠ 1 → s.mem.holds s.pc.toNat (0xFF :: encodeRM Reg32.index g d) →
      ∃ t, step s = .next t ∧ t.runState = .fatal (.unsupportedOpcode 0xFF (some g)))

/-- R277 (1), R55: an opcode fetch at or above `MEM_SIZE` is fatal and names the program counter. -/
def Obligations.OpcodeFetchOutsideMemoryIsFatal : Prop :=
  ∀ (s : State), s.runState = .running → s.mem.size ≤ s.pc.toNat →
    ∃ t, step s = .next t ∧ t.runState = .fatal (.outOfBounds s.pc.toNat)

/-- R277 (5) before (6): memory ends after the descriptor of a group-83 instruction with a legal
selector: OutOfBounds at the end of memory, in a SIB form too. -/
def Obligations.MissingImmediateBeforeAddressing : Prop :=
  ∀ (s : State) (g : BitVec 3) (d : RM Reg32),
    s.runState = .running → s.mem.size < 2 ^ 32 → d.wellFormed = true → g = 0 ∨ g = 5 ∨ g = 7 →
    s.mem.holds s.pc.toNat (0x83 :: encodeRM Reg32.index g d) →
    s.pc.toNat + (0x83 :: encodeRM Reg32.index g d).length = s.mem.size →
    ∃ t, step s = .next t ∧ t.runState = .fatal (.outOfBounds s.mem.size)

/-- R321, R287, R315: a step always answers, but that IN from port 0x3F8 with no byte ready has no
successor; nothing is ever refused. That "no byte ready" is the empty input list is the model's
choice (log 5). -/
def Obligations.OnlyPortReadBlocks : Prop :=
  ∀ (s : State), (∀ r, step s ≠ .refused r) ∧
    ∀ f, step s = .fault f → f = .blockedOnInput ∧ s.runState = .running ∧ s.input = [] ∧
      (s.reg .edx).setWidth 16 = (0x3F8 : BitVec 16) ∧
      ∃ pc, fetchInstr s.mem s.pc = .ok (.inAlDx, pc)

/-- R316: after a step that completes an instruction the engine is Stopped exactly when the program
counter is 0, and else still Running. -/
def Obligations.SentinelEndsRun : Prop :=
  ∀ (s t : State), s.runState = .running → step s = .next t → t.isFatal = false →
    (t.pc = 0 → t.runState = .stopped) ∧ (t.pc ≠ 0 → t.runState = .running)

/-- R318: a step request to a Stopped or Fatal engine does nothing and changes no state. -/
def Obligations.EndedEngineDoesNothing : Prop :=
  ∀ (s : State) (c : Fatal), s.runState = .stopped ∨ s.runState = .fatal c → step s = .next s

/-- Only OUT hands a byte to the device and only IN takes one from it, at most one a step (R252, R253,
R255; R319). That the bytes taken and the bytes ready are lists in State, to which OUT appends one
byte and whose first byte IN takes, are the model's choices (log 6 and log 5). -/
def Obligations.OnlyPortAccessMovesStreams : Prop :=
  ∀ (s t : State), step s = .next t →
    (t.output = s.output ∨ (∃ pc, fetchInstr s.mem s.pc = .ok (.outDxAl, pc)) ∧
      ∃ v, t.output = s.output ++ [v]) ∧
    (t.input = s.input ∨ (∃ pc, fetchInstr s.mem s.pc = .ok (.inAlDx, pc)) ∧
      ∃ v, s.input = v :: t.input)

/-! ### Invariants and reset -/

/-- Every step keeps the invariant of Safety.lean, from every state that meets it. -/
def Obligations.StepKeepsInvariant : Prop :=
  ∀ (s t : State), s.Inv → step s = .next t → t.Inv

/-- The reset state meets the invariant. It rests on the model's own parameter values (log 1). -/
def Obligations.ResetMeetsInvariant : Prop := State.reset.Inv

/-- Every reset that is not refused meets the invariant. -/
def Obligations.BootMeetsInvariant : Prop :=
  ∀ (p : BootParams) (s : State), State.boot p = .ok s → s.Inv

/-- R42: memory after reset is zero but for the image at its load address. -/
def Obligations.BootMemoryIsImage : Prop :=
  ∀ (p : BootParams) (s : State), State.boot p = .ok s →
    s.mem.size = p.memSize ∧
    (∀ k (h : k < p.image.length), s.mem.byte (p.loadAddr + k) = p.image[k]) ∧
    ∀ a, a < p.loadAddr ∨ p.loadAddr + p.image.length ≤ a → s.mem.byte a = 0

/-- R40: after reset `pc = INIT_PC`, `ESP = INIT_SP`, `run_state = Running`. -/
def Obligations.BootPcSpRunState : Prop :=
  ∀ (p : BootParams) (s : State), State.boot p = .ok s →
    s.pc = p.initPc ∧ s.reg .esp = p.initSp ∧ s.runState = .running

/-- After reset the other seven registers and the flags are 0: the spec's own decision D10, not the
document's word (log 2). -/
def Obligations.BootOtherRegistersZero : Prop :=
  ∀ (p : BootParams) (s : State), State.boot p = .ok s →
    (∀ r, r ≠ .esp → s.reg r = 0) ∧ s.flags = 0

/-- U12, U13 (log 7): a reset is refused exactly for `INIT_PC = 0`, a memory size outside 1 to 2^32, or an
image that does not fit. -/
def Obligations.BootRefusesExactlyBadParameters : Prop :=
  ∀ (p : BootParams), (∃ r, State.boot p = .error r) ↔
    p.memSize < 1 ∨ 2 ^ 32 < p.memSize ∨ p.initPc = 0 ∨ p.memSize < p.loadAddr + p.image.length

/-- R50: the memory size is fixed at construction: no step changes it. -/
def Obligations.StepKeepsMemorySize : Prop :=
  ∀ (s t : State), step s = .next t → t.mem.size = s.mem.size

/-! ### Memory primitives -/

/-- R53: `MemRead(addr, n)` for n = 1 and n = 4, in bounds and out. -/
def Obligations.MemReadPrimitive : Prop :=
  ∀ (m : Memory) (addr : Word),
    (addr.toNat + 1 ≤ m.size → m.read8 addr = .ok (m.byte addr.toNat)) ∧
    (∀ b, isFirstOutside m addr.toNat 1 b → m.read8 addr = .error (.outOfBounds b)) ∧
    (addr.toNat + 4 ≤ m.size →
      m.read32 addr = .ok (m.byte (addr.toNat + 3) ++ m.byte (addr.toNat + 2) ++
        m.byte (addr.toNat + 1) ++ m.byte addr.toNat)) ∧
    ∀ b, isFirstOutside m addr.toNat 4 b → m.read32 addr = .error (.outOfBounds b)

/-- R54: `MemWrite(addr, n, v)` for n = 1 and n = 4, in bounds and out: the bytes written, and no
other byte. -/
def Obligations.MemWritePrimitive : Prop :=
  ∀ (m : Memory) (addr : Word) (b : Byte) (v : Word), m.wf →
    (addr.toNat + 1 ≤ m.size → ∃ n, m.write8 addr b = .ok n ∧ n.size = m.size ∧
      n.byte addr.toNat = b ∧ ∀ x, x ≠ addr.toNat → n.byte x = m.byte x) ∧
    (∀ x, isFirstOutside m addr.toNat 1 x → m.write8 addr b = .error (.outOfBounds x)) ∧
    (addr.toNat + 4 ≤ m.size → ∃ n, m.write32 addr v = .ok n ∧ n.size = m.size ∧
      n.byte addr.toNat = v.extractLsb' 0 8 ∧ n.byte (addr.toNat + 1) = v.extractLsb' 8 8 ∧
      n.byte (addr.toNat + 2) = v.extractLsb' 16 8 ∧ n.byte (addr.toNat + 3) = v.extractLsb' 24 8 ∧
      ∀ x, x < addr.toNat ∨ addr.toNat + 4 ≤ x → n.byte x = m.byte x) ∧
    ∀ x, isFirstOutside m addr.toNat 4 x → m.write32 addr v = .error (.outOfBounds x)

/-- R60: a byte store shows in its lane of a covering 32-bit load, and a 32-bit store shows lane by
lane in byte loads. -/
def Obligations.MixedWidthAccess : Prop :=
  ∀ (m : Memory) (addr : Word) (k : Nat), m.wf → m.size ≤ 2 ^ 32 → k < 4 →
    addr.toNat + 4 ≤ m.size →
    (∀ (b : Byte) (n : Memory), m.write8 (addr + BitVec.ofNat 32 k) b = .ok n →
      ∃ w, n.read32 addr = .ok w ∧ w.extractLsb' (8 * k) 8 = b) ∧
    ∀ (v : Word) (n : Memory), m.write32 addr v = .ok n →
      n.read8 (addr + BitVec.ofNat 32 k) = .ok (v.extractLsb' (8 * k) 8)

/-- The effective addresses of the table of R126 (40_modrm_operands.md, section 2). -/
def Obligations.EffectiveAddressTable : Prop :=
  ∀ (s : State) (b : Reg32) (d8 sib : Byte) (d : Word),
    s.effectiveAddress (.base b) = .ok (s.reg b) ∧
    s.effectiveAddress (.disp d) = .ok d ∧
    s.effectiveAddress (.baseDisp8 b d8) = .ok (s.reg b + d8.signExtend 32) ∧
    s.effectiveAddress (.baseDisp32 b d) = .ok (s.reg b + d) ∧
    s.effectiveAddress (.sib sib) = .error (.unsupportedAddressing 0 4) ∧
    s.effectiveAddress (.sibDisp8 sib d8) = .error (.unsupportedAddressing 1 4) ∧
    s.effectiveAddress (.sibDisp32 sib d) = .error (.unsupportedAddressing 2 4)

/-- R24: an 8-bit register write replaces one byte of the parent, and no other register or view. -/
def Obligations.ByteRegisterWriteTouchesOneByte : Prop :=
  ∀ (s : State) (v : Byte) (p : Reg32) (lo hi : Reg8),
    (p, lo, hi) ∈ [(Reg32.eax, Reg8.al, Reg8.ah), (.ecx, .cl, .ch), (.edx, .dl, .dh), (.ebx, .bl, .bh)] →
    ((s.setReg8 lo v).reg p = (s.reg p).extractLsb' 8 24 ++ v ∧
      (s.setReg8 hi v).reg p = (s.reg p).extractLsb' 16 16 ++ v ++ (s.reg p).extractLsb' 0 8) ∧
    (∀ q, q ≠ p → (s.setReg8 lo v).reg q = s.reg q ∧ (s.setReg8 hi v).reg q = s.reg q) ∧
    (s.setReg8 lo v).reg8 lo = v ∧ (s.setReg8 lo v).reg8 hi = s.reg8 hi ∧
    (s.setReg8 hi v).reg8 hi = v ∧ (s.setReg8 hi v).reg8 lo = s.reg8 lo ∧
    ∀ k, 16 ≤ k → ((s.setReg8 lo v).reg p).getLsbD k = (s.reg p).getLsbD k ∧
      ((s.setReg8 hi v).reg p).getLsbD k = (s.reg p).getLsbD k

/-! ### Flags -/

/-- R171: what `compute_sub_flags(a, b)` leaves: zero iff equal, carry iff below unsigned, sign bit
31 of the difference, overflow iff the signed difference does not fit, sign differs from overflow
iff below signed. -/
def Obligations.SubtractionFlags : Prop :=
  ∀ (a b f : Word),
    ((subFlags a b f).getLsbD 6 = true ↔ a = b) ∧
    ((subFlags a b f).getLsbD 0 = true ↔ a.toNat < b.toNat) ∧
    (subFlags a b f).getLsbD 7 = (a - b).getLsbD 31 ∧
    ((subFlags a b f).getLsbD 11 = true ↔
      a.toInt - b.toInt < -2 ^ 31 ∨ 2 ^ 31 - 1 < a.toInt - b.toInt) ∧
    ((subFlags a b f).getLsbD 7 ≠ (subFlags a b f).getLsbD 11 ↔ a.toInt < b.toInt)

/-- R27: reading a flag gives its bit; writing one replaces its bit and no other, and
`compute_sub_flags` changes no bit but 0, 6, 7 and 11. -/
def Obligations.FlagWriteIsBitLevel : Prop :=
  (∀ f : Word, carryFlag f = f.getLsbD 0 ∧ zeroFlag f = f.getLsbD 6 ∧ signFlag f = f.getLsbD 7 ∧
    overflowFlag f = f.getLsbD 11) ∧
  (∀ (f : Word) (k j : Nat) (b : Bool), k < 32 →
    (putBit f k b).getLsbD j = if j = k then b else f.getLsbD j) ∧
  ∀ (a b f : Word) (j : Nat), j ≠ 0 → j ≠ 6 → j ≠ 7 → j ≠ 11 →
    (subFlags a b f).getLsbD j = f.getLsbD j

/-- After `cmp a, b` the seven conditions of R203 say what R204 to R217 say of their jumps. -/
def Obligations.ConditionsAfterCompare : Prop :=
  ∀ (a b f : Word),
    (condOverflow (subFlags a b f) = true ↔
      a.toInt - b.toInt < -2 ^ 31 ∨ 2 ^ 31 - 1 < a.toInt - b.toInt) ∧
    (condCarry (subFlags a b f) = true ↔ a.toNat < b.toNat) ∧
    (condZero (subFlags a b f) = true ↔ a = b) ∧
    (condBelowEqual (subFlags a b f) = true ↔ a.toNat ≤ b.toNat) ∧
    (condSign (subFlags a b f) = true ↔ (a - b).toInt < 0) ∧
    (condLess (subFlags a b f) = true ↔ a.toInt < b.toInt) ∧
    (condLessEqual (subFlags a b f) = true ↔ a.toInt ≤ b.toInt)

/-- R28: only CMP and SUB write flags, all four by `compute_sub_flags`; every other instruction
leaves all 32 bits. -/
def Obligations.OnlySubtractionsWriteFlags : Prop :=
  ∀ (i : Instr) (s t : State), exec i s = .next t →
    (isFlagWriter i = false → t.flags = s.flags) ∧
    (∀ r d, i = .cmpR32Rm32 r d →
      ∃ b, s.readRM32 d = .ok b ∧ t.flags = subFlags (s.reg r) b s.flags) ∧
    (∀ d imm, i = .subRm32Imm8 d imm ∨ i = .cmpRm32Imm8 d imm →
      ∃ a, s.readRM32 d = .ok a ∧ t.flags = subFlags a (imm.signExtend 32) s.flags)

/-- R26: the 28 inert bits are never read by any handler: flags words that agree on CF, ZF, SF and OF
lead to the same state up to inert bits. -/
def Obligations.InertFlagBitsNeverRead : Prop :=
  ∀ (i : Instr) (s t : State) (g : Word), sameFlagBits s.flags g → exec i s = .next t →
    ∃ h, exec i (s.setFlags g) = .next (t.setFlags h) ∧ sameFlagBits t.flags h

/-- R29: only the fourteen conditional jumps read flags: any other instruction does the same to
everything but the flags word, whatever the flags word is. -/
def Obligations.OnlyConditionalJumpsReadFlags : Prop :=
  ∀ (i : Instr) (s t : State) (g : Word), isConditionalJump i = false → exec i s = .next t →
    ∃ h, exec i (s.setFlags g) = .next (t.setFlags h)

/-! ### Data movement -/

/-- R150, R151: the immediate moves complete, writing the named register or view only. -/
def Obligations.MovImmediateCompletes : Prop :=
  ∀ (s : State) (r : Reg32) (q : Reg8) (imm : Word) (b : Byte),
    completesInReg (.movR32Imm32 r imm) s r imm s.flags ∧ completesInReg8 (.movR8Imm8 q b) s q b

/-- R152: MOV rm8, r8 completes in both forms. -/
def Obligations.MovRm8R8Completes : Prop :=
  ∀ (s : State) (r : Reg8), s.mem.wf →
    (∀ q, completesInReg8 (.movRm8R8 (.reg q) r) s q (s.reg8 r)) ∧
    ∀ m a, s.effectiveAddress m = .ok a → a.toNat + 1 ≤ s.mem.size →
      completesInMem8 (.movRm8R8 (.mem m) r) s a (s.reg8 r)

/-- R153: MOV rm32, r32 completes in both forms. -/
def Obligations.MovRm32R32Completes : Prop :=
  ∀ (s : State) (r : Reg32), s.mem.wf →
    updatesRM32 (fun d => .movRm32R32 d r) s (fun _ => s.reg r) (fun _ => s.flags)

/-- R154: MOV r8, rm8 completes in both forms. -/
def Obligations.MovR8Rm8Completes : Prop :=
  ∀ (s : State) (r : Reg8),
    (∀ q, completesInReg8 (.movR8Rm8 r (.reg q)) s r (s.reg8 q)) ∧
    ∀ m a, s.effectiveAddress m = .ok a → a.toNat + 1 ≤ s.mem.size →
      completesInReg8 (.movR8Rm8 r (.mem m)) s r (s.mem.byte a.toNat)

/-- R155: MOV r32, rm32 completes in both forms; the address uses the old registers. -/
def Obligations.MovR32Rm32Completes : Prop :=
  ∀ (s : State) (r : Reg32),
    (∀ q, completesInReg (.movR32Rm32 r (.reg q)) s r (s.reg q) s.flags) ∧
    ∀ m a, s.effectiveAddress m = .ok a → a.toNat + 4 ≤ s.mem.size →
      completesInReg (.movR32Rm32 r (.mem m)) s r (s.mem.wordAt a.toNat) s.flags

/-! ### Arithmetic and compare -/

/-- R173: ADD rm32, r32 completes in both forms, wraps, and writes no flag. -/
def Obligations.AddRm32R32Completes : Prop :=
  ∀ (s : State) (r : Reg32), s.mem.wf →
    updatesRM32 (fun d => .addRm32R32 d r) s (fun v => v + s.reg r) (fun _ => s.flags)

/-- R175: ADD rm32, imm8 completes in both forms with the immediate sign-extended, and writes no
flag. -/
def Obligations.AddRm32Imm8Completes : Prop :=
  ∀ (s : State) (imm : Byte), s.mem.wf →
    updatesRM32 (fun d => .addRm32Imm8 d imm) s (fun v => v + imm.signExtend 32) (fun _ => s.flags)

/-- R176: SUB rm32, imm8 completes in both forms and writes the flags from the old operand value. -/
def Obligations.SubRm32Imm8Completes : Prop :=
  ∀ (s : State) (imm : Byte), s.mem.wf →
    updatesRM32 (fun d => .subRm32Imm8 d imm) s (fun v => v - imm.signExtend 32)
      (fun v => subFlags v (imm.signExtend 32) s.flags)

/-- R177: CMP rm32, imm8 completes in both forms and changes the flags only. -/
def Obligations.CmpRm32Imm8Completes : Prop :=
  ∀ (s : State) (imm : Byte),
    (∀ q, completesInFlags (.cmpRm32Imm8 (.reg q) imm) s
      (subFlags (s.reg q) (imm.signExtend 32) s.flags)) ∧
    ∀ m a, s.effectiveAddress m = .ok a → a.toNat + 4 ≤ s.mem.size →
      completesInFlags (.cmpRm32Imm8 (.mem m) imm) s
        (subFlags (s.mem.wordAt a.toNat) (imm.signExtend 32) s.flags)

/-- R178: CMP r32, rm32 completes in both forms and changes the flags only. -/
def Obligations.CmpR32Rm32Completes : Prop :=
  ∀ (s : State) (r : Reg32),
    (∀ q, completesInFlags (.cmpR32Rm32 r (.reg q)) s (subFlags (s.reg r) (s.reg q) s.flags)) ∧
    ∀ m a, s.effectiveAddress m = .ok a → a.toNat + 4 ≤ s.mem.size →
      completesInFlags (.cmpR32Rm32 r (.mem m)) s
        (subFlags (s.reg r) (s.mem.wordAt a.toNat) s.flags)

/-- R180, R181: INC and DEC complete in both forms, wrap, and write no flag. -/
def Obligations.IncDecRm32Complete : Prop :=
  ∀ (s : State), s.mem.wf →
    updatesRM32 .incRm32 s (fun v => v + 1) (fun _ => s.flags) ∧
    updatesRM32 .decRm32 s (fun v => v - 1) (fun _ => s.flags)

/-! ### Control transfer -/

/-- R201, R202: the jumps complete and change the program counter only. -/
def Obligations.JmpCompletes : Prop :=
  ∀ (s : State) (rel8 : Byte) (rel : Word),
    exec (.jmpRel8 rel8) s = .next (s.setPc (s.pc + rel8.signExtend 32)) ∧
    exec (.jmpRel32 rel) s = .next (s.setPc (s.pc + rel))

/-- R203 to R217: each conditional jump completes, adds the displacement exactly when its condition
on CF, ZF, SF, OF holds, and changes the program counter only. -/
def Obligations.ConditionalJumpsComplete : Prop :=
  ∀ (s : State) (rel : Byte),
    let cf := s.flags.getLsbD 0
    let zf := s.flags.getLsbD 6
    let sf := s.flags.getLsbD 7
    let ov := s.flags.getLsbD 11
    let go (taken : Bool) : Out := .next (if taken then s.setPc (s.pc + rel.signExtend 32) else s)
    exec (.joRel8 rel) s = go ov ∧ exec (.jnoRel8 rel) s = go (!ov) ∧
    exec (.jcRel8 rel) s = go cf ∧ exec (.jncRel8 rel) s = go (!cf) ∧
    exec (.jzRel8 rel) s = go zf ∧ exec (.jnzRel8 rel) s = go (!zf) ∧
    exec (.jbeRel8 rel) s = go (cf || zf) ∧ exec (.jaRel8 rel) s = go (!cf && !zf) ∧
    exec (.jsRel8 rel) s = go sf ∧ exec (.jnsRel8 rel) s = go (!sf) ∧
    exec (.jlRel8 rel) s = go (sf != ov) ∧ exec (.jgeRel8 rel) s = go (sf == ov) ∧
    exec (.jleRel8 rel) s = go (zf || sf != ov) ∧ exec (.jgRel8 rel) s = go (!zf && sf == ov)

/-- R218: CALL rel32 pushes the address after the instruction and transfers. -/
def Obligations.CallRel32Completes : Prop :=
  ∀ (s : State) (rel : Word), s.mem.wf → (s.reg .esp - 4).toNat + 4 ≤ s.mem.size →
    ∃ t, exec (.callRel32 rel) s = .next t ∧ t.pc = s.pc + rel ∧ t.reg .esp = s.reg .esp - 4 ∧
      t.mem.wordAt (s.reg .esp - 4).toNat = s.pc ∧
      memSameOutside s t (s.reg .esp - 4).toNat 4 ∧ regsSameBut s t [.esp] ∧
      t.flags = s.flags ∧ restSame s t

/-- R219: RET pops the program counter. -/
def Obligations.RetCompletes : Prop :=
  ∀ (s : State), (s.reg .esp).toNat + 4 ≤ s.mem.size →
    ∃ t, exec .ret s = .next t ∧ t.pc = s.mem.wordAt (s.reg .esp).toNat ∧
      t.reg .esp = s.reg .esp + 4 ∧ t.mem = s.mem ∧ regsSameBut s t [.esp] ∧
      t.flags = s.flags ∧ restSame s t

/-! ### Stack -/

/-- R233: PUSH r32 stores the register's value from before ESP changes. -/
def Obligations.PushR32Completes : Prop :=
  ∀ (s : State) (r : Reg32), s.mem.wf → (s.reg .esp - 4).toNat + 4 ≤ s.mem.size →
    ∃ t, exec (.pushR32 r) s = .next t ∧ t.reg .esp = s.reg .esp - 4 ∧
      t.mem.wordAt (s.reg .esp - 4).toNat = s.reg r ∧
      memSameOutside s t (s.reg .esp - 4).toNat 4 ∧ regsSameBut s t [.esp] ∧
      t.flags = s.flags ∧ t.pc = s.pc ∧ restSame s t

/-- R234: POP r32 loads the register; ESP rises by 4, and POP ESP leaves the loaded value. -/
def Obligations.PopR32Completes : Prop :=
  ∀ (s : State) (r : Reg32), (s.reg .esp).toNat + 4 ≤ s.mem.size →
    ∃ t, exec (.popR32 r) s = .next t ∧ t.reg r = s.mem.wordAt (s.reg .esp).toNat ∧
      (r ≠ .esp → t.reg .esp = s.reg .esp + 4) ∧ t.mem = s.mem ∧ regsSameBut s t [r, .esp] ∧
      t.flags = s.flags ∧ t.pc = s.pc ∧ restSame s t

/-- R236: LEAVE leaves ESP = old EBP + 4 and EBP the doubleword at old EBP. -/
def Obligations.LeaveCompletes : Prop :=
  ∀ (s : State), (s.reg .ebp).toNat + 4 ≤ s.mem.size →
    ∃ t, exec .leave s = .next t ∧ t.reg .esp = s.reg .ebp + 4 ∧
      t.reg .ebp = s.mem.wordAt (s.reg .ebp).toNat ∧ t.mem = s.mem ∧
      regsSameBut s t [.esp, .ebp] ∧ t.flags = s.flags ∧ t.pc = s.pc ∧ restSame s t

/-- R232: a push immediately followed by a pop restores ESP and the value, and leaves the value in
memory below ESP, little-endian. -/
def Obligations.PushThenPopRestores : Prop :=
  ∀ (s t : State) (v : Word), s.mem.wf → s.push32 v = .ok t →
    ∃ u, t.pop32 = .ok (v, u) ∧ (∀ r, u.reg r = s.reg r) ∧
      ∀ k, k < 4 → u.mem.byte ((s.reg .esp - 4).toNat + k) = v.extractLsb' (8 * k) 8

/-- A CALL, the prologue push EBP, mov EBP ESP, a frame allocation sub ESP imm8, then LEAVE and RET,
with any program counters in between: execution resumes at the return address the call pushed, with
ESP and EBP as before the call (R221, the document's scenario). -/
def Obligations.FrameTeardownReturns : Prop :=
  ∀ (s t1 t2 t3 t4 : State) (rel p1 p2 p3 p4 p5 : Word) (imm : Byte), s.mem.wf →
    exec (.callRel32 rel) s = .next t1 →
    exec (.pushR32 .ebp) (t1.setPc p1) = .next t2 →
    exec (.movRm32R32 (.reg .ebp) .esp) (t2.setPc p2) = .next t3 →
    exec (.subRm32Imm8 (.reg .esp) imm) (t3.setPc p3) = .next t4 →
    ∃ t5 u, exec .leave (t4.setPc p4) = .next t5 ∧ exec .ret (t5.setPc p5) = .next u ∧
      u.pc = s.pc ∧ (∀ r, u.reg r = s.reg r)

/-! ### Port I/O -/

/-- R250, R252, R255: IN AL, DX: an absent port gives 0, the device its next byte; only AL changes.
With no byte ready the instruction has no successor. The device's bytes as a list, none ready when it
is empty, are the model's choice (log 5). -/
def Obligations.InAlDxCompletes : Prop :=
  ∀ (s : State),
    ((s.reg .edx).setWidth 16 ≠ (0x3F8 : BitVec 16) → completesInReg8 .inAlDx s .al 0) ∧
    ((s.reg .edx).setWidth 16 = (0x3F8 : BitVec 16) → ∀ b bs, s.input = b :: bs →
      ∃ t, exec .inAlDx s = .next t ∧ t.reg8 .al = b ∧ t.input = bs ∧
        (∀ k, 8 ≤ k → (t.reg .eax).getLsbD k = (s.reg .eax).getLsbD k) ∧
        regsSameBut s t [.eax] ∧ t.flags = s.flags ∧ t.mem = s.mem ∧ t.pc = s.pc ∧
        engineSame s t ∧ t.output = s.output) ∧
    ((s.reg .edx).setWidth 16 = (0x3F8 : BitVec 16) → s.input = [] →
      exec .inAlDx s = .fault .blockedOnInput)

/-- R251, R253: OUT DX, AL hands AL to the device at port 0x3F8 and is discarded elsewhere; nothing
else changes. The device's bytes as a list are the model's choice (log 6). -/
def Obligations.OutDxAlCompletes : Prop :=
  ∀ (s : State), ∃ t, exec .outDxAl s = .next t ∧
    t.output = (if (s.reg .edx).setWidth 16 = (0x3F8 : BitVec 16)
      then s.output ++ [(s.reg .eax).extractLsb' 0 8] else s.output) ∧
    t.input = s.input ∧ regsSameBut s t [] ∧ t.flags = s.flags ∧ t.mem = s.mem ∧ t.pc = s.pc ∧
    engineSame s t

/-! ### Where instructions trap -/

/-- R99 (R272 for the info): in every instruction with a ModRM byte a SIB form is
Fatal.UnsupportedAddressing with its mode and rm = 4, and the step that meets it ends so. -/
def Obligations.SibFormsAreUnsupported : Prop :=
  ∀ (s : State) (sib d8 imm : Byte) (d : Word) (r : Reg32) (q : Reg8) (m : MemRef) (mode : BitVec 2),
    (m, mode) ∈ [(MemRef.sib sib, (0 : BitVec 2)), (.sibDisp8 sib d8, 1), (.sibDisp32 sib d, 2)] →
    ∀ i ∈ rm32Instrs (.mem m) r imm ++ rm8Instrs (.mem m) q,
      exec i s = .fault (.fatal (.unsupportedAddressing mode 4)) ∧
      (s.runState = .running → s.mem.size ≤ 2 ^ 32 → s.mem.holds s.pc.toNat (encode i) →
        ∃ t, step s = .next t ∧ t.runState = .fatal (.unsupportedAddressing mode 4))

/-- R55, R273: in every instruction with a ModRM byte an operand that does not lie inside memory is
Fatal.OutOfBounds with the first offending byte address. -/
def Obligations.OperandOutsideMemoryIsFatal : Prop :=
  ∀ (s : State) (imm : Byte) (r : Reg32) (q : Reg8) (m : MemRef) (a : Word) (b : Nat),
    s.effectiveAddress m = .ok a →
    (isFirstOutside s.mem a.toNat 4 b → ∀ i ∈ rm32Instrs (.mem m) r imm,
      exec i s = .fault (.fatal (.outOfBounds b))) ∧
    (isFirstOutside s.mem a.toNat 1 b → ∀ i ∈ rm8Instrs (.mem m) q,
      exec i s = .fault (.fatal (.outOfBounds b)))

/-- R230, R231, R273: a stack access outside memory is Fatal.OutOfBounds with the first offending
byte address. -/
def Obligations.StackOutsideMemoryIsFatal : Prop :=
  ∀ (s : State) (r : Reg32) (rel : Word) (b : Nat),
    (isFirstOutside s.mem (s.reg .esp - 4).toNat 4 b →
      exec (.pushR32 r) s = .fault (.fatal (.outOfBounds b)) ∧
      exec (.callRel32 rel) s = .fault (.fatal (.outOfBounds b))) ∧
    (isFirstOutside s.mem (s.reg .esp).toNat 4 b →
      exec (.popR32 r) s = .fault (.fatal (.outOfBounds b)) ∧
      exec .ret s = .fault (.fatal (.outOfBounds b))) ∧
    (isFirstOutside s.mem (s.reg .ebp).toNat 4 b →
      exec .leave s = .fault (.fatal (.outOfBounds b)))
end

