-- ==== Sys2Proof/Laws/Bits.lean ====
section
/-! SUPPORT. The laws of byte order, byte lanes and ModRM fields. -/

namespace Sys2Proof

/-- R51, bit by bit. -/
theorem getLsbD_le32 (b0 b1 b2 b3 : Byte) (i : Nat) :
    (le32 b0 b1 b2 b3).getLsbD i =
      if i < 8 then b0.getLsbD i else if i < 16 then b1.getLsbD (i - 8)
      else if i < 24 then b2.getLsbD (i - 16) else b3.getLsbD (i - 24) := by
  have e := BitVec.getLsbD_append (x := b3 ++ b2 ++ b1) (y := b0) (i := i)
  refine e.trans ?_
  rw [BitVec.getLsbD_append, BitVec.getLsbD_append, Nat.sub_sub, Nat.sub_sub]
  by_cases h8 : i < 8
  · simp [h8]
  · by_cases h16 : i < 16
    · have : i - 8 < 8 := by omega
      simp [*]
    · have n1 : ¬ (i - 8 < 8) := by omega
      by_cases h24 : i < 24
      · have : i - 16 < 8 := by omega
        simp [*]
      · have n2 : ¬ (i - 16 < 8) := by omega
        simp [*]


theorem getLsbD_byteOf (w : Word) (k i : Nat) :
    (byteOf w k).getLsbD i = (decide (i < 8) && w.getLsbD (8 * k + i)) := by
  simp [byteOf]


/-- R51: a value stored as four bytes and read back. -/
@[simp] theorem le32_bytes (w : Word)  : le32 (byteOf w 0) (byteOf w 1) (byteOf w 2) (byteOf w 3) = w := by
  apply BitVec.eq_of_getLsbD_eq
  intro i hi
  simp only [getLsbD_le32, getLsbD_byteOf]
  split_ifs with h1 h2 h3
  · simp [h1]
  · have e : 8 * 1 + (i - 8) = i := by omega
    have : i - 8 < 8 := by omega
    simp [*]
  · have e : 8 * 2 + (i - 16) = i := by omega
    have : i - 16 < 8 := by omega
    simp [*]
  · have e : 8 * 3 + (i - 24) = i := by omega
    have : i - 24 < 8 := by omega
    simp [*]

/-- R60: the byte lanes of a 32-bit value. -/
theorem byteOf_le32 (b0 b1 b2 b3 : Byte) (k : Nat) (hk : k < 4) :
    byteOf (le32 b0 b1 b2 b3) k = [b0, b1, b2, b3][k] := by
  apply BitVec.eq_of_getLsbD_eq
  intro i hi
  rw [getLsbD_byteOf, getLsbD_le32]
  have : k = 0 ∨ k = 1 ∨ k = 2 ∨ k = 3 := by omega
  rcases this with rfl | rfl | rfl | rfl
  · simp [hi]
  · have e1 : 8 + i < 16 := by omega
    simp [hi, e1]
  · have e1 : ¬ 16 + i < 8 := by omega
    have e2 : 16 + i < 24 := by omega
    simp [hi, e1, e2]
  · have e1 : ¬ 24 + i < 8 := by omega
    have e2 : ¬ 24 + i < 16 := by omega
    simp [hi, e1, e2]

/-! ### ModRM fields (R82) -/

@[simp] theorem modrm_mode (m : BitVec 2) (g r : BitVec 3) : modrmMode (modrmByte m g r) = m := by
  revert m g r; decide

@[simp] theorem modrm_reg (m : BitVec 2) (g r : BitVec 3) : modrmReg (modrmByte m g r) = g := by
  revert m g r; decide

@[simp] theorem modrm_rm (m : BitVec 2) (g r : BitVec 3) : modrmRm (modrmByte m g r) = r := by
  revert m g r; decide

@[simp] theorem modrmByte_fields (b : Byte) : modrmByte (modrmMode b) (modrmReg b) (modrmRm b) = b := by
  revert b; decide

end Sys2Proof
end

