-- ==== Sys2Proof/Laws/Decode.lean ====
section
/-! SUPPORT. The laws of the decoder's parts: register numbers, the dispatcher on encoded opcode
bytes, and the decoding of an encoded operand. -/

namespace Sys2Proof

/-! ### Register numbers -/

@[simp] theorem Reg32.ofIndex_index (r : Reg32) : Reg32.ofIndex r.index = r := by cases r <;> rfl

@[simp] theorem Reg32.index_ofIndex (n : BitVec 3) : (Reg32.ofIndex n).index = n := by
  revert n; decide

@[simp] theorem Reg8.ofIndex_index (r : Reg8) : Reg8.ofIndex r.index = r := by cases r <;> rfl

@[simp] theorem Reg8.index_ofIndex (n : BitVec 3) : (Reg8.ofIndex n).index = n := by
  revert n; decide

/-! ### Running a fetch program on bytes -/

@[simp] theorem Fetch.runList_done (i : Instr) (bs : List Byte) : (Fetch.done i).runList bs = .ok i bs := by
  cases bs <;> rfl

@[simp] theorem Fetch.runList_reject (op : Byte) (sel : Option (BitVec 3)) (bs : List Byte) :
    (Fetch.reject op sel : Fetch Instr).runList bs = .unsupported op sel := by
  cases bs <;> rfl

@[simp] theorem Fetch.runList_need8_cons (k : Byte → Fetch Instr) (b : Byte) (bs : List Byte) :
    (Fetch.need8 k).runList (b :: bs) = (k b).runList bs := rfl

@[simp] theorem Fetch.runList_need8_nil (k : Byte → Fetch Instr) :
    (Fetch.need8 k).runList [] = .truncated := rfl

@[simp] theorem Fetch.runList_need32_cons (k : Word → Fetch Instr) (b0 b1 b2 b3 : Byte) (bs : List Byte) :
    (Fetch.need32 k).runList (b0 :: b1 :: b2 :: b3 :: bs) = (k (le32 b0 b1 b2 b3)).runList bs := rfl

/-- A 32-bit field encoded is fetched back (R52). -/
@[simp] theorem Fetch.runList_need32_le32Bytes (k : Word → Fetch Instr) (w : Word) (bs : List Byte) :
    (Fetch.need32 k).runList (le32Bytes w ++ bs) = (k w).runList bs := by
  simp [le32Bytes]

/-! ### The dispatcher -/

/-- R92: an opcode byte of a register-in-opcode family gives back its register. -/
theorem opReg_opWithReg (f : OpForm) (hf : f.mask = 0xF8) (r : BitVec 3) :
    opReg (opWithReg f r) = r := by
  cases f <;> first | (revert r; decide) | exact absurd hf (by decide)

theorem dispatch_opWithReg (f : OpForm) (hf : f.mask = 0xF8) (r : BitVec 3) :
    dispatch (opWithReg f r) = some f := by
  cases f <;> first | (revert r; decide) | exact absurd hf (by decide)

@[simp] theorem dispatch_opcode (f : OpForm) : dispatch f.opcode = some f := by cases f <;> rfl

/-- R91: the rows of the opcode map do not overlap. -/
theorem opForms_disjoint :
    opForms.Pairwise fun f g => f.opcode &&& (f.mask &&& g.mask) ≠ g.opcode &&& (f.mask &&& g.mask) := by
  decide

theorem mem_opForms (f : OpForm) : f ∈ opForms := by cases f <;> decide

/-- A form the dispatcher answers covers the byte. -/
theorem dispatch_covers {op : Byte} {f : OpForm} (h : dispatch op = some f) :
    op &&& f.mask = f.opcode := by
  have := List.find?_some h
  simpa [OpForm.covers] using this

/-- R92: the byte of a register-in-opcode family is its base plus the register in its low bits. -/
theorem opWithReg_opReg {op : Byte} {f : OpForm} (hf : f.mask = 0xF8) (h : dispatch op = some f) :
    opWithReg f (opReg op) = op := by
  have hc := dispatch_covers h
  have split : ∀ b : Byte, (b &&& 0xF8) + (b.extractLsb' 0 3).setWidth 8 = b := by decide
  rw [hf] at hc
  rw [opWithReg, ← hc]
  exact split op

theorem opcode_of_dispatch {op : Byte} {f : OpForm} (hf : f.mask = 0xFF) (h : dispatch op = some f) :
    f.opcode = op := by
  have hc := dispatch_covers h
  have all : ∀ b : Byte, b &&& 0xFF = b := by decide
  rw [hf] at hc
  rw [← hc]
  exact all op

/-! ### Operands -/

/-- Decoding an encoded operand gives back the operand and the `reg` field (R121, R123). -/
theorem runList_decodeModRM {ρ : Type} {toReg : BitVec 3 → ρ} {index : ρ → BitVec 3}
    (hρ : ∀ r, toReg (index r) = r) (k : RM ρ → BitVec 3 → Fetch Instr) (g : BitVec 3) (d : RM ρ)
    (hd : d.wellFormed = true) (bs : List Byte) :
    (decodeModRM toReg k).runList (encodeRM index g d ++ bs) = (k d g).runList bs := by
  cases d with
  | reg r => simp [decodeModRM, encodeRM, hρ]
  | mem m =>
    cases m with
    | base b =>
      cases b <;> first | (simp [MemRef.wellFormed, RM.wellFormed] at hd; done) |
        simp [decodeModRM, encodeRM, encodeMem, decodeMem, Reg32.index, Reg32.ofIndex]
    | disp d => simp [decodeModRM, encodeRM, encodeMem, decodeMem]
    | baseDisp8 b d =>
      cases b <;> first | (simp [MemRef.wellFormed, RM.wellFormed] at hd; done) |
        simp [decodeModRM, encodeRM, encodeMem, decodeMem, Reg32.index, Reg32.ofIndex]
    | baseDisp32 b d =>
      cases b <;> first | (simp [MemRef.wellFormed, RM.wellFormed] at hd; done) |
        simp [decodeModRM, encodeRM, encodeMem, decodeMem, Reg32.index, Reg32.ofIndex]
    | sib x => simp [decodeModRM, encodeRM, encodeMem, decodeMem]
    | sibDisp8 x d => simp [decodeModRM, encodeRM, encodeMem, decodeMem]
    | sibDisp32 x d => simp [decodeModRM, encodeRM, encodeMem, decodeMem]

/-! ### Inversion -/

/-- A decoding that goes on past a `Fetch8` had a byte to fetch. -/
theorem runList_need8_ok {k : Byte → Fetch Instr} {bs rest : List Byte} {i : Instr}
    (h : (Fetch.need8 k).runList bs = .ok i rest) :
    ∃ b cs, bs = b :: cs ∧ (k b).runList cs = .ok i rest := by
  match bs, h with
  | b :: cs, h => exact ⟨b, cs, rfl, h⟩

/-- A decoding that goes on past a `Fetch32` had the four bytes of a value to fetch. -/
theorem runList_need32_ok {k : Word → Fetch Instr} {bs rest : List Byte} {i : Instr}
    (h : (Fetch.need32 k).runList bs = .ok i rest) :
    ∃ w cs, bs = le32Bytes w ++ cs ∧ (k w).runList cs = .ok i rest := by
  match bs, h with
  | b0 :: b1 :: b2 :: b3 :: cs, h =>
    refine ⟨le32 b0 b1 b2 b3, cs, ?_, h⟩
    have := fun k hk => byteOf_le32 b0 b1 b2 b3 k hk
    simp only [le32Bytes, List.cons_append, List.nil_append]
    rw [this 0 (by omega), this 1 (by omega), this 2 (by omega), this 3 (by omega)]; rfl

/-- A decoding that goes on past a ModRM descriptor had the encoding of a well-formed operand there. -/
theorem decodeModRM_ok {ρ : Type} {toReg : BitVec 3 → ρ} {index : ρ → BitVec 3} (hρ : ∀ n, index (toReg n) = n)
    {k : RM ρ → BitVec 3 → Fetch Instr} {bs rest : List Byte} {i : Instr}
    (h : (decodeModRM toReg k).runList bs = .ok i rest) :
    ∃ d g cs, d.wellFormed = true ∧ bs = encodeRM index g d ++ cs ∧ (k d g).runList cs = .ok i rest := by
  obtain ⟨b, cs, rfl, h'⟩ := runList_need8_ok h
  clear h; rename' h' => h
  have hb := modrmByte_fields b
  have wf : ∀ n : BitVec 3, n ≠ 4 → Reg32.ofIndex n ≠ .esp := by decide
  have wf5 : ∀ n : BitVec 3, n ≠ 5 → Reg32.ofIndex n ≠ .ebp := by decide
  have m4 : ∀ m : BitVec 2, m ≠ 0 → m ≠ 1 → m ≠ 3 → m = 2 := by decide
  split_ifs at h with h3
  · refine ⟨.reg (toReg (modrmRm b)), modrmReg b, cs, rfl, ?_, h⟩
    simp only [encodeRM, hρ, List.cons_append, List.nil_append]
    rw [← h3, hb]
  · unfold decodeMem at h
    split_ifs at h with hr hm0 hm1 hn0 hm5 hn1
    · obtain ⟨sib, cs, rfl, h'⟩ := runList_need8_ok h; clear h; rename' h' => h
      refine ⟨.mem (.sib sib), _, cs, rfl, ?_, h⟩
      simp only [encodeRM, encodeMem, List.cons_append, List.nil_append]; rw [← hm0, ← hr, hb]
    · obtain ⟨sib, cs, rfl, h'⟩ := runList_need8_ok h; clear h; rename' h' => h
      obtain ⟨d, cs, rfl, h'⟩ := runList_need8_ok h; clear h; rename' h' => h
      refine ⟨.mem (.sibDisp8 sib d), _, cs, rfl, ?_, h⟩
      simp only [encodeRM, encodeMem, List.cons_append, List.nil_append]; rw [← hm1, ← hr, hb]
    · obtain ⟨sib, cs, rfl, h'⟩ := runList_need8_ok h; clear h; rename' h' => h
      obtain ⟨d, cs, rfl, h'⟩ := runList_need32_ok h; clear h; rename' h' => h
      refine ⟨.mem (.sibDisp32 sib d), _, cs, rfl, ?_, h⟩
      simp only [encodeRM, encodeMem, List.cons_append]; rw [← m4 _ hm0 hm1 h3, ← hr, hb]
    · obtain ⟨d, cs, rfl, h'⟩ := runList_need32_ok h; clear h; rename' h' => h
      refine ⟨.mem (.disp d), _, cs, rfl, ?_, h⟩
      simp only [encodeRM, encodeMem, List.cons_append]; rw [← hn0, ← hm5, hb]
    · refine ⟨.mem (.base _), _, cs, ?_, ?_, h⟩
      · simp [RM.wellFormed, MemRef.wellFormed, wf _ hr, wf5 _ hm5]
      · simp only [encodeRM, encodeMem, List.cons_append, List.nil_append, Reg32.index_ofIndex]; rw [← hn0, hb]
    · obtain ⟨d, cs, rfl, h'⟩ := runList_need8_ok h; clear h; rename' h' => h
      refine ⟨.mem (.baseDisp8 _ d), _, cs, ?_, ?_, h⟩
      · simp [RM.wellFormed, MemRef.wellFormed, wf _ hr]
      · simp only [encodeRM, encodeMem, List.cons_append, List.nil_append, Reg32.index_ofIndex]; rw [← hn1, hb]
    · obtain ⟨d, cs, rfl, h'⟩ := runList_need32_ok h; clear h; rename' h' => h
      refine ⟨.mem (.baseDisp32 _ d), _, cs, ?_, ?_, h⟩
      · simp [RM.wellFormed, MemRef.wellFormed, wf _ hr]
      · simp only [encodeRM, encodeMem, List.cons_append, Reg32.index_ofIndex]; rw [← m4 _ hn0 hn1 h3, hb]

end Sys2Proof
end

