-- ==== Sys2Proof/Laws/State.lean ====
section
/-! SUPPORT. One lemma for each field of State under each update, and the register file's laws. -/

namespace Sys2Proof.Machine

section
variable (s : State) (r : Reg32) (v : Word)
@[simp] theorem State.setReg_regs : (s.setReg r v).regs = s.regs.set r v := rfl
@[simp] theorem State.setReg_flags : (s.setReg r v).flags = s.flags := rfl
@[simp] theorem State.setReg_pc : (s.setReg r v).pc = s.pc := rfl
@[simp] theorem State.setReg_mem : (s.setReg r v).mem = s.mem := rfl
@[simp] theorem State.setReg_runState : (s.setReg r v).runState = s.runState := rfl
@[simp] theorem State.setReg_input : (s.setReg r v).input = s.input := rfl
@[simp] theorem State.setReg_output : (s.setReg r v).output = s.output := rfl
@[simp] theorem State.setReg_freeCount : (s.setReg r v).freeCount = s.freeCount := rfl
end

section
variable (s : State) (r : Reg8) (v : Byte)
@[simp] theorem State.setReg8_regs : (s.setReg8 r v).regs = s.regs.set8 r v := rfl
@[simp] theorem State.setReg8_flags : (s.setReg8 r v).flags = s.flags := rfl
@[simp] theorem State.setReg8_pc : (s.setReg8 r v).pc = s.pc := rfl
@[simp] theorem State.setReg8_mem : (s.setReg8 r v).mem = s.mem := rfl
@[simp] theorem State.setReg8_runState : (s.setReg8 r v).runState = s.runState := rfl
@[simp] theorem State.setReg8_input : (s.setReg8 r v).input = s.input := rfl
@[simp] theorem State.setReg8_output : (s.setReg8 r v).output = s.output := rfl
@[simp] theorem State.setReg8_freeCount : (s.setReg8 r v).freeCount = s.freeCount := rfl
end

section
variable (s : State) (v : Word)
@[simp] theorem State.setPc_regs : (s.setPc v).regs = s.regs := rfl
@[simp] theorem State.setPc_flags : (s.setPc v).flags = s.flags := rfl
@[simp] theorem State.setPc_pc : (s.setPc v).pc = v := rfl
@[simp] theorem State.setPc_mem : (s.setPc v).mem = s.mem := rfl
@[simp] theorem State.setPc_runState : (s.setPc v).runState = s.runState := rfl
@[simp] theorem State.setPc_input : (s.setPc v).input = s.input := rfl
@[simp] theorem State.setPc_output : (s.setPc v).output = s.output := rfl
@[simp] theorem State.setPc_freeCount : (s.setPc v).freeCount = s.freeCount := rfl
end

section
variable (s : State) (v : Word)
@[simp] theorem State.setFlags_regs : (s.setFlags v).regs = s.regs := rfl
@[simp] theorem State.setFlags_flags : (s.setFlags v).flags = v := rfl
@[simp] theorem State.setFlags_pc : (s.setFlags v).pc = s.pc := rfl
@[simp] theorem State.setFlags_mem : (s.setFlags v).mem = s.mem := rfl
@[simp] theorem State.setFlags_runState : (s.setFlags v).runState = s.runState := rfl
@[simp] theorem State.setFlags_input : (s.setFlags v).input = s.input := rfl
@[simp] theorem State.setFlags_output : (s.setFlags v).output = s.output := rfl
@[simp] theorem State.setFlags_freeCount : (s.setFlags v).freeCount = s.freeCount := rfl
end

section
variable (s : State) (v : Memory)
@[simp] theorem State.setMem_regs : (s.setMem v).regs = s.regs := rfl
@[simp] theorem State.setMem_flags : (s.setMem v).flags = s.flags := rfl
@[simp] theorem State.setMem_pc : (s.setMem v).pc = s.pc := rfl
@[simp] theorem State.setMem_mem : (s.setMem v).mem = v := rfl
@[simp] theorem State.setMem_runState : (s.setMem v).runState = s.runState := rfl
@[simp] theorem State.setMem_input : (s.setMem v).input = s.input := rfl
@[simp] theorem State.setMem_output : (s.setMem v).output = s.output := rfl
@[simp] theorem State.setMem_freeCount : (s.setMem v).freeCount = s.freeCount := rfl
end

section
variable (s : State) (v : RunState)
@[simp] theorem State.setRunState_regs : (s.setRunState v).regs = s.regs := rfl
@[simp] theorem State.setRunState_flags : (s.setRunState v).flags = s.flags := rfl
@[simp] theorem State.setRunState_pc : (s.setRunState v).pc = s.pc := rfl
@[simp] theorem State.setRunState_mem : (s.setRunState v).mem = s.mem := rfl
@[simp] theorem State.setRunState_runState : (s.setRunState v).runState = v := rfl
@[simp] theorem State.setRunState_input : (s.setRunState v).input = s.input := rfl
@[simp] theorem State.setRunState_output : (s.setRunState v).output = s.output := rfl
@[simp] theorem State.setRunState_freeCount : (s.setRunState v).freeCount = s.freeCount := rfl
end

section
variable (s : State) (v : List Byte)
@[simp] theorem State.setInput_regs : (s.setInput v).regs = s.regs := rfl
@[simp] theorem State.setInput_flags : (s.setInput v).flags = s.flags := rfl
@[simp] theorem State.setInput_pc : (s.setInput v).pc = s.pc := rfl
@[simp] theorem State.setInput_mem : (s.setInput v).mem = s.mem := rfl
@[simp] theorem State.setInput_runState : (s.setInput v).runState = s.runState := rfl
@[simp] theorem State.setInput_input : (s.setInput v).input = v := rfl
@[simp] theorem State.setInput_output : (s.setInput v).output = s.output := rfl
@[simp] theorem State.setInput_freeCount : (s.setInput v).freeCount = s.freeCount := rfl
end

section
variable (s : State) (v : Byte)
@[simp] theorem State.emit_regs : (s.emit v).regs = s.regs := rfl
@[simp] theorem State.emit_flags : (s.emit v).flags = s.flags := rfl
@[simp] theorem State.emit_pc : (s.emit v).pc = s.pc := rfl
@[simp] theorem State.emit_mem : (s.emit v).mem = s.mem := rfl
@[simp] theorem State.emit_runState : (s.emit v).runState = s.runState := rfl
@[simp] theorem State.emit_input : (s.emit v).input = s.input := rfl
@[simp] theorem State.emit_output : (s.emit v).output = s.output ++ [v] := rfl
@[simp] theorem State.emit_freeCount : (s.emit v).freeCount = s.freeCount := rfl
end

/-! ### Registers -/

@[simp] theorem State.regs_get (s : State) (r : Reg32) : s.regs.get r = s.reg r := rfl

@[simp] theorem Regs.get_set_same (x : Regs) (r : Reg32) (v : Word) : (x.set r v).get r = v := by
  cases r <;> rfl

theorem Regs.get_set_ne (x : Regs) {r q : Reg32} (v : Word) (h : q ≠ r) :
    (x.set r v).get q = x.get q := by
  cases r <;> cases q <;> first | rfl | exact absurd rfl h

theorem Regs.get_set (x : Regs) (r q : Reg32) (v : Word) :
    (x.set r v).get q = if q = r then v else x.get q := by
  by_cases h : q = r
  · subst h; simp
  · simp [h, Regs.get_set_ne x v h]

@[simp] theorem State.reg_setReg_same (s : State) (r : Reg32) (v : Word) : (s.setReg r v).reg r = v :=
  Regs.get_set_same _ _ _

theorem State.reg_setReg_ne (s : State) {r q : Reg32} (v : Word) (h : q ≠ r) :
    (s.setReg r v).reg q = s.reg q := Regs.get_set_ne _ _ h

theorem State.reg_setReg (s : State) (r q : Reg32) (v : Word) :
    (s.setReg r v).reg q = if q = r then v else s.reg q := Regs.get_set _ _ _ _

@[simp] theorem State.reg_setPc (s : State) (v : Word) (r : Reg32) : (s.setPc v).reg r = s.reg r := rfl
@[simp] theorem State.reg8_setPc (s : State) (v : Word) (r : Reg8) : (s.setPc v).reg8 r = s.reg8 r := rfl
@[simp] theorem State.reg_setFlags (s : State) (v : Word) (r : Reg32) : (s.setFlags v).reg r = s.reg r := rfl
@[simp] theorem State.reg8_setFlags (s : State) (v : Word) (r : Reg8) : (s.setFlags v).reg8 r = s.reg8 r := rfl
@[simp] theorem State.reg_setMem (s : State) (v : Memory) (r : Reg32) : (s.setMem v).reg r = s.reg r := rfl
@[simp] theorem State.reg8_setMem (s : State) (v : Memory) (r : Reg8) : (s.setMem v).reg8 r = s.reg8 r := rfl
@[simp] theorem State.reg_setRunState (s : State) (v : RunState) (r : Reg32) : (s.setRunState v).reg r = s.reg r := rfl
@[simp] theorem State.reg8_setRunState (s : State) (v : RunState) (r : Reg8) : (s.setRunState v).reg8 r = s.reg8 r := rfl
@[simp] theorem State.reg_setInput (s : State) (v : List Byte) (r : Reg32) : (s.setInput v).reg r = s.reg r := rfl
@[simp] theorem State.reg8_setInput (s : State) (v : List Byte) (r : Reg8) : (s.setInput v).reg8 r = s.reg8 r := rfl
@[simp] theorem State.reg_emit (s : State) (v : Byte) (r : Reg32) : (s.emit v).reg r = s.reg r := rfl
@[simp] theorem State.reg8_emit (s : State) (v : Byte) (r : Reg8) : (s.emit v).reg8 r = s.reg8 r := rfl

/-! ### 8-bit views (R23, R24) -/

theorem getLsbD_withViewByte (h : Bool) (w : Word) (v : Byte) (i : Nat) :
    (withViewByte h w v).getLsbD i =
      if (if h then 8 ≤ i ∧ i < 16 else i < 8) then v.getLsbD (if h then i - 8 else i) else w.getLsbD i := by
  cases h
  · have e := BitVec.getLsbD_append (x := w.extractLsb' 8 24) (y := v) (i := i)
    refine e.trans ?_
    simp only [BitVec.getLsbD_extractLsb']
    by_cases h8 : i < 8
    · simp [h8]
    · have : 8 + (i - 8) = i := by omega
      simp [h8, this]
      intro hw
      have := BitVec.lt_of_getLsbD hw
      omega
  · have e := BitVec.getLsbD_append (x := w.extractLsb' 16 16 ++ v) (y := w.extractLsb' 0 8) (i := i)
    refine e.trans ?_
    rw [BitVec.getLsbD_append]
    simp only [BitVec.getLsbD_extractLsb']
    by_cases h8 : i < 8
    · simp [h8]
    · by_cases h16 : i < 16
      · have : i - 8 < 8 := by omega
        have : 8 ≤ i := by omega
        simp [*]
      · have e2 : 16 + (i - 8 - 8) = i := by omega
        have e1 : ¬ (i - 8 < 8) := by omega
        simp [h8, h16, e1, e2]
        intro hw
        have := BitVec.lt_of_getLsbD hw
        omega

theorem getLsbD_viewByte (h : Bool) (w : Word) (i : Nat) :
    (viewByte h w).getLsbD i = (decide (i < 8) && w.getLsbD (if h then 8 + i else i)) := by
  cases h <;> simp [viewByte]

theorem viewByte_withViewByte_same (h : Bool) (w : Word) (v : Byte) :
    viewByte h (withViewByte h w v) = v := by
  apply BitVec.eq_of_getLsbD_eq
  intro i hi
  rw [getLsbD_viewByte, getLsbD_withViewByte]
  cases h <;> simp [hi] <;> omega

theorem viewByte_withViewByte_other (h : Bool) (w : Word) (v : Byte) :
    viewByte (!h) (withViewByte h w v) = viewByte (!h) w := by
  apply BitVec.eq_of_getLsbD_eq
  intro i hi
  rw [getLsbD_viewByte, getLsbD_viewByte, getLsbD_withViewByte]
  cases h <;> simp [hi]

/-- R24: "8-bit accessors never touch bytes 2–3 of the parent register". -/
theorem withViewByte_upper (h : Bool) (w : Word) (v : Byte) :
    (withViewByte h w v).extractLsb' 16 16 = w.extractLsb' 16 16 := by
  apply BitVec.eq_of_getLsbD_eq
  intro i hi
  rw [BitVec.getLsbD_extractLsb', BitVec.getLsbD_extractLsb', getLsbD_withViewByte]
  cases h <;> simp [hi] <;> omega

theorem State.reg_setReg8 (s : State) (r : Reg8) (v : Byte) (q : Reg32) :
    (s.setReg8 r v).reg q =
      if q = reg8Parent r then withViewByte (reg8IsHigh r) (s.reg (reg8Parent r)) v else s.reg q :=
  Regs.get_set _ _ _ _

@[simp] theorem State.reg8_setReg8_same (s : State) (r : Reg8) (v : Byte) : (s.setReg8 r v).reg8 r = v := by
  show viewByte _ ((s.setReg8 r v).reg _) = v
  rw [State.reg_setReg8, if_pos rfl, viewByte_withViewByte_same]

theorem State.reg8_setReg8_ne (s : State) {r q : Reg8} (v : Byte) (h : q ≠ r) :
    (s.setReg8 r v).reg8 q = s.reg8 q := by
  show viewByte _ ((s.setReg8 r v).reg _) = viewByte _ (s.reg _)
  rw [State.reg_setReg8]
  split
  · rename_i hp
    have hh : reg8IsHigh q = !reg8IsHigh r := by
      cases r <;> cases q <;> first | rfl | exact absurd rfl h | cases hp
    rw [hh, viewByte_withViewByte_other, hp]
  · rfl

end Sys2Proof.Machine
end

