-- ==== Sys2Proof/Laws/Memory.lean ====
section
/-! SUPPORT. The laws of memory: a read after a write, every other byte untouched, the canonical form
kept, and when an access is in bounds. -/

namespace Sys2Proof.Machine

/-! ### Lists of cells -/

/-- An address below every listed one is unlisted. -/
theorem cellsGet_below {cs : List Host.Cell} {a : Nat} (h : ∀ c ∈ cs, a < c.1) :
    cellsGet cs a = Memory.unlisted := by
  induction cs with
  | nil => rfl
  | cons c cs ih =>
    have hc := h c (by simp)
    have ne : ¬ c.1 = a := by omega
    simp only [cellsGet, if_neg ne]
    exact ih fun d hd => h d (by simp [hd])

theorem cellsGet_cellsSet (cs : List Host.Cell) (h : cs.Pairwise fun a b => a.1 < b.1)
    (a : Nat) (v : Byte) (x : Nat) :
    cellsGet (cellsSet cs a v) x = if x = a then v else cellsGet cs x := by
  induction cs with
  | nil =>
    by_cases hv : v = Memory.unlisted <;> by_cases hx : x = a <;>
      simp [cellsSet, cellsGet, hv, hx, Ne.symm]
  | cons c cs ih =>
    obtain ⟨hc, hcs⟩ := List.pairwise_cons.mp h
    by_cases h1 : c.1 < a
    · simp only [cellsSet, if_pos h1, cellsGet, ih hcs]
      split_ifs <;> first | rfl | omega
    · by_cases h2 : c.1 = a
      · subst h2
        have low : cellsGet cs c.1 = Memory.unlisted := cellsGet_below hc
        by_cases hx : x = c.1
        · by_cases hv : v = Memory.unlisted <;> simp [cellsSet, cellsGet, hv, hx, low]
        · have hx' : ¬ c.1 = x := fun e => hx e.symm
          by_cases hv : v = Memory.unlisted <;> simp [cellsSet, cellsGet, hv, hx, hx']
      · have low : cellsGet (c :: cs) a = Memory.unlisted := cellsGet_below fun d hd => by
          rcases List.mem_cons.mp hd with rfl | hd
          · omega
          · have := hc d hd; omega
        by_cases hv : v = Memory.unlisted
        · simp only [cellsSet, if_neg h1, if_neg h2, if_pos hv]
          split_ifs with hx
          · rw [hx, low, hv]
          · rfl
        · simp only [cellsSet, if_neg h1, if_neg h2, if_neg hv]
          rw [cellsGet.eq_def]
          simp only [eq_comm]

theorem mem_cellsSet {cs : List Host.Cell} {a : Nat} {v : Byte} {c : Host.Cell}
    (h : c ∈ cellsSet cs a v) : c ∈ cs ∨ (c = (a, v) ∧ v ≠ Memory.unlisted) := by
  induction cs with
  | nil =>
    simp only [cellsSet] at h
    split_ifs at h with hv
    · simp at h
    · exact .inr ⟨by simpa using h, hv⟩
  | cons d cs ih =>
    simp only [cellsSet] at h
    split_ifs at h with h1 h2 h3 h4
    · rcases List.mem_cons.mp h with rfl | h
      · simp
      · rcases ih h with h | h
        · exact .inl (by simp [h])
        · exact .inr h
    · exact .inl (by simp [h])
    · rcases List.mem_cons.mp h with rfl | h
      · exact .inr ⟨rfl, h3⟩
      · exact .inl (by simp [h])
    · exact .inl h
    · rcases List.mem_cons.mp h with rfl | h
      · exact .inr ⟨rfl, h4⟩
      · exact .inl h

theorem cellsSet_rising {cs : List Host.Cell} (h : cs.Pairwise fun a b => a.1 < b.1)
    (a : Nat) (v : Byte) : (cellsSet cs a v).Pairwise fun a b => a.1 < b.1 := by
  induction cs with
  | nil => simp only [cellsSet]; split_ifs <;> simp
  | cons c cs ih =>
    obtain ⟨hc, hcs⟩ := List.pairwise_cons.mp h
    simp only [cellsSet]
    split_ifs with h1 h2 h3 h4
    · refine List.pairwise_cons.mpr ⟨fun d hd => ?_, ih hcs⟩
      rcases mem_cellsSet hd with hd | ⟨rfl, -⟩
      · exact hc d hd
      · exact h1
    · exact hcs
    · exact List.pairwise_cons.mpr ⟨fun d hd => h2 ▸ hc d hd, hcs⟩
    · exact h
    · refine List.pairwise_cons.mpr ⟨fun d hd => ?_, h⟩
      rcases List.mem_cons.mp hd with rfl | hd
      · show a < d.1; omega
      · have := hc d hd; show a < d.1; omega

/-! ### One byte -/

@[simp] theorem Memory.setByte_size (m : Memory) (a : Nat) (v : Byte) :
    (m.setByte a v).size = m.size := by
  unfold Memory.setByte; split_ifs <;> rfl

theorem Memory.setByte_wf {m : Memory} (h : m.wf) (a : Nat) (v : Byte) : (m.setByte a v).wf := by
  unfold Memory.setByte
  split_ifs with ha
  · refine ⟨cellsSet_rising h.1 a v, fun c hc => ?_⟩
    rcases mem_cellsSet hc with hc | ⟨rfl, hv⟩
    · exact h.2 c hc
    · exact ⟨ha, hv⟩
  · exact h

/-- Reading any byte after a byte store (R54, R63). -/
theorem Memory.byte_setByte {m : Memory} (h : m.wf) {a : Nat} (ha : a < m.size) (v : Byte) (x : Nat) :
    (m.setByte a v).byte x = if x = a then v else m.byte x := by
  unfold Memory.setByte Memory.byte
  rw [if_pos ha]
  exact cellsGet_cellsSet _ h.1 a v x

theorem Memory.byte_setByte_ne {m : Memory} (h : m.wf) (a : Nat) (v : Byte) {x : Nat} (hx : x ≠ a) :
    (m.setByte a v).byte x = m.byte x := by
  by_cases ha : a < m.size
  · rw [Memory.byte_setByte h ha, if_neg hx]
  · simp [Memory.setByte, ha]

/-- A byte outside memory reads as unlisted; no access reaches it. -/
theorem Memory.byte_outside {m : Memory} (h : m.wf) {x : Nat} (hx : m.size ≤ x) :
    m.byte x = Memory.unlisted := by
  have : ∀ l : List Host.Cell, (∀ c ∈ l, c.1 < m.size) → cellsGet l x = Memory.unlisted := by
    intro l hl
    induction l with
    | nil => rfl
    | cons c l ih =>
      have := hl c (by simp)
      rw [cellsGet, if_neg (by omega), ih fun d hd => hl d (by simp [hd])]
  exact this _ fun c hc => (h.2 c hc).1

/-! ### Four bytes -/

@[simp] theorem Memory.setWord_size (m : Memory) (a : Nat) (v : Word) :
    (m.setWord a v).size = m.size := by simp [Memory.setWord]

theorem Memory.setWord_wf {m : Memory} (h : m.wf) (a : Nat) (v : Word) : (m.setWord a v).wf :=
  Memory.setByte_wf (Memory.setByte_wf (Memory.setByte_wf (Memory.setByte_wf h _ _) _ _) _ _) _ _

/-- R54: each byte lane of a stored 32-bit value, and every other byte as it was. -/
theorem Memory.byte_setWord {m : Memory} (h : m.wf) {a : Nat} (ha : a + 4 ≤ m.size) (v : Word)
    (x : Nat) :
    (m.setWord a v).byte x = if a ≤ x ∧ x < a + 4 then byteOf v (x - a) else m.byte x := by
  have h1 := Memory.setByte_wf h a (byteOf v 0)
  have h2 := Memory.setByte_wf h1 (a + 1) (byteOf v 1)
  have h3 := Memory.setByte_wf h2 (a + 2) (byteOf v 2)
  unfold Memory.setWord
  rw [Memory.byte_setByte h3 (by simp; omega), Memory.byte_setByte h2 (by simp; omega),
    Memory.byte_setByte h1 (by simp; omega), Memory.byte_setByte h (by omega)]
  split_ifs with e3 e2 e1 e0 <;> first
    | omega
    | rfl
    | (congr 1; omega)

theorem Memory.byte_setWord_outside {m : Memory} (h : m.wf) (a : Nat) (v : Word) {x : Nat}
    (hx : x < a ∨ a + 4 ≤ x) : (m.setWord a v).byte x = m.byte x := by
  have h1 := Memory.setByte_wf h a (byteOf v 0)
  have h2 := Memory.setByte_wf h1 (a + 1) (byteOf v 1)
  have h3 := Memory.setByte_wf h2 (a + 2) (byteOf v 2)
  unfold Memory.setWord
  rw [Memory.byte_setByte_ne h3 _ _ (by omega), Memory.byte_setByte_ne h2 _ _ (by omega),
    Memory.byte_setByte_ne h1 _ _ (by omega), Memory.byte_setByte_ne h _ _ (by omega)]

theorem Memory.wordAt_setWord_same {m : Memory} (h : m.wf) {a : Nat} (ha : a + 4 ≤ m.size) (v : Word) :
    (m.setWord a v).wordAt a = v := by
  simp only [Memory.wordAt, Memory.byte_setWord h ha]
  simp

theorem Memory.wordAt_congr {m n : Memory} {a : Nat} (h : ∀ x, a ≤ x → x < a + 4 → n.byte x = m.byte x) :
    n.wordAt a = m.wordAt a := by
  simp only [Memory.wordAt]
  rw [h a (by omega) (by omega), h (a + 1) (by omega) (by omega), h (a + 2) (by omega) (by omega),
    h (a + 3) (by omega) (by omega)]

/-! ### Bounds (R53 to R55) -/

theorem Memory.firstOutside_none {m : Memory} {a n : Nat} :
    m.firstOutside a n = none ↔ a + n ≤ m.size := by
  unfold Memory.firstOutside; split_ifs <;> simp_all

/-- R53: the reported address is the smallest byte address of the access that is not inside. -/
theorem Memory.firstOutside_smallest {m : Memory} {a n b : Nat} (hn : 0 < n)
    (h : m.firstOutside a n = some b) :
    a ≤ b ∧ b < a + n ∧ m.size ≤ b ∧ ∀ x, a ≤ x → x < b → x < m.size := by
  unfold Memory.firstOutside at h
  split_ifs at h with hs
  have hb : b = max a m.size := (Option.some.inj h).symm
  refine ⟨?_, ?_, ?_, fun x hx hxb => ?_⟩ <;> omega

theorem Memory.read8_eq {m : Memory} {a : Word} (h : a.toNat + 1 ≤ m.size) :
    m.read8 a = .ok (m.byte a.toNat) := by
  simp [Memory.read8, Memory.firstOutside_none.mpr h]

theorem Memory.read32_eq {m : Memory} {a : Word} (h : a.toNat + 4 ≤ m.size) :
    m.read32 a = .ok (m.wordAt a.toNat) := by
  simp [Memory.read32, Memory.firstOutside_none.mpr h, Memory.wordAt]

theorem Memory.write8_eq {m : Memory} {a : Word} (h : a.toNat + 1 ≤ m.size) (v : Byte) :
    m.write8 a v = .ok (m.setByte a.toNat v) := by
  simp [Memory.write8, Memory.firstOutside_none.mpr h]

theorem Memory.write32_eq {m : Memory} {a : Word} (h : a.toNat + 4 ≤ m.size) (v : Word) :
    m.write32 a v = .ok (m.setWord a.toNat v) := by
  simp [Memory.write32, Memory.firstOutside_none.mpr h]

theorem Memory.firstOutside_eq {m : Memory} {a n : Nat} (h : m.size < a + n) :
    m.firstOutside a n = some (max a m.size) := by
  simp [Memory.firstOutside, Nat.not_le.mpr h]

theorem Memory.read8_err {m : Memory} {a : Word} (h : m.size < a.toNat + 1) :
    m.read8 a = .error (.outOfBounds (max a.toNat m.size)) := by
  simp [Memory.read8, Memory.firstOutside_eq h]

theorem Memory.read32_err {m : Memory} {a : Word} (h : m.size < a.toNat + 4) :
    m.read32 a = .error (.outOfBounds (max a.toNat m.size)) := by
  simp [Memory.read32, Memory.firstOutside_eq h]

theorem Memory.write8_err {m : Memory} {a : Word} (h : m.size < a.toNat + 1) (v : Byte) :
    m.write8 a v = .error (.outOfBounds (max a.toNat m.size)) := by
  simp [Memory.write8, Memory.firstOutside_eq h]

theorem Memory.write32_err {m : Memory} {a : Word} (h : m.size < a.toNat + 4) (v : Word) :
    m.write32 a v = .error (.outOfBounds (max a.toNat m.size)) := by
  simp [Memory.write32, Memory.firstOutside_eq h]

/-- What an 8-bit read can answer. -/
theorem Memory.read8_cases (m : Memory) (a : Word) :
    (a.toNat + 1 ≤ m.size ∧ m.read8 a = .ok (m.byte a.toNat)) ∨
      (m.size < a.toNat + 1 ∧ m.read8 a = .error (.outOfBounds (max a.toNat m.size))) := by
  rcases Nat.lt_or_ge m.size (a.toNat + 1) with h | h
  · exact .inr ⟨h, Memory.read8_err h⟩
  · exact .inl ⟨h, Memory.read8_eq h⟩

/-- What a 32-bit read can answer. -/
theorem Memory.read32_cases (m : Memory) (a : Word) :
    (a.toNat + 4 ≤ m.size ∧ m.read32 a = .ok (m.wordAt a.toNat)) ∨
      (m.size < a.toNat + 4 ∧ m.read32 a = .error (.outOfBounds (max a.toNat m.size))) := by
  rcases Nat.lt_or_ge m.size (a.toNat + 4) with h | h
  · exact .inr ⟨h, Memory.read32_err h⟩
  · exact .inl ⟨h, Memory.read32_eq h⟩

/-! ### Stores from outside the instruction set -/

theorem Memory.applyStores_size (m : Memory) (cs : List (Nat × Byte)) :
    (m.applyStores cs).size = m.size := by
  induction cs generalizing m with
  | nil => rfl
  | cons c cs ih => simp [Memory.applyStores, ih]

theorem Memory.applyStores_wf {m : Memory} (h : m.wf) (cs : List (Nat × Byte)) :
    (m.applyStores cs).wf := by
  induction cs generalizing m with
  | nil => exact h
  | cons c cs ih => exact ih (Memory.setByte_wf h _ _)

theorem Memory.loadImage_size (m : Memory) (a : Nat) (bs : List Byte) :
    (m.loadImage a bs).size = m.size := by
  induction bs generalizing m a with
  | nil => rfl
  | cons b bs ih => simp [Memory.loadImage, ih]

theorem Memory.loadImage_wf {m : Memory} (h : m.wf) (a : Nat) (bs : List Byte) :
    (m.loadImage a bs).wf := by
  induction bs generalizing m a with
  | nil => exact h
  | cons b bs ih => exact ih (Memory.setByte_wf h _ _) _

theorem placeBytes_size (m : Memory) (pc : Word) (bs : List Byte) :
    (placeBytes m pc bs).size = m.size := by
  induction bs generalizing m pc with
  | nil => rfl
  | cons b bs ih => simp [placeBytes, ih]

theorem placeBytes_wf {m : Memory} (h : m.wf) (pc : Word) (bs : List Byte) :
    (placeBytes m pc bs).wf := by
  induction bs generalizing m pc with
  | nil => exact h
  | cons b bs ih => exact ih (Memory.setByte_wf h _ _) _

end Sys2Proof.Machine
end

