-- ==== Sys2Proof/Laws/Fetch.lean ====
section
/-! SUPPORT. Fetching from memory agrees with decoding the bytes that stand there. -/

namespace Sys2Proof.Machine

theorem runList_rest_le {p : Fetch Instr} {bs rest : List Byte} {i : Instr}
    (h : p.runList bs = .ok i rest) : rest.length ≤ bs.length := by
  induction p generalizing bs with
  | done a => rw [Fetch.runList_done] at h; cases h; exact le_rfl
  | reject op sel => rw [Fetch.runList_reject] at h; cases h
  | need8 k ih =>
    match bs, h with
    | b :: bs, h => exact le_trans (ih b h) (by simp)
  | need32 k ih =>
    match bs, h with
    | b0 :: b1 :: b2 :: b3 :: bs, h => exact le_trans (ih _ h) (by simp; omega)

/-- The bytes `bs` stand at `pc` and on: the form in which a fetch consumes them. -/
def standsAt (m : Memory) (pc : Word) (bs : List Byte) : Prop :=
  ∀ k (h : k < bs.length), pc.toNat + k < m.size ∧ m.byte (pc.toNat + k) = bs[k]

theorem standsAt_of_holds {m : Memory} {pc : Word} {bs : List Byte} (h : m.holds pc.toNat bs) :
    standsAt m pc bs := fun k hk => ⟨by have := h.1; omega, h.2 k hk⟩

theorem standsAt_tail {m : Memory} (hs : m.size ≤ 2 ^ 32) {pc : Word} (n : Nat) {bs cs : List Byte}
    (hn : bs.length = n) (h : standsAt m pc (bs ++ cs)) : standsAt m (pc + BitVec.ofNat 32 n) cs := by
  intro k hk
  have h1 := h (n + k) (by simp; omega)
  have e : (pc + BitVec.ofNat 32 n).toNat = pc.toNat + n := by
    have := pc.isLt
    simp only [BitVec.toNat_add, BitVec.toNat_ofNat]
    have : pc.toNat + n < 2 ^ 32 := by omega
    omega
  rw [e, Nat.add_assoc]
  refine ⟨h1.1, h1.2.trans ?_⟩
  rw [List.getElem_append_right (by omega)]
  congr 1
  omega

theorem read8_standsAt {m : Memory} {pc : Word} {b : Byte} {bs : List Byte}
    (h : standsAt m pc (b :: bs)) : m.read8 pc = .ok b := by
  have h0 := h 0 (by simp)
  rw [Memory.read8_eq (by omega)]
  simpa using h0.2

theorem read32_standsAt {m : Memory} {pc : Word} {b0 b1 b2 b3 : Byte} {bs : List Byte}
    (h : standsAt m pc (b0 :: b1 :: b2 :: b3 :: bs)) : m.read32 pc = .ok (le32 b0 b1 b2 b3) := by
  have h0 := (h 0 (by simp)).2
  have h1 := (h 1 (by simp)).2
  have h2 := (h 2 (by simp)).2
  have h3 := h 3 (by simp)
  rw [Memory.read32_eq (by omega)]
  simp only [List.getElem_cons_zero, List.getElem_cons_succ, Nat.add_zero] at h0 h1 h2 h3
  rw [Memory.wordAt, h0, h1, h2, h3.2]

theorem runFetch_need8 {m : Memory} {k : Byte → Fetch Instr} {pc : Word} {b : Byte}
    (h : m.read8 pc = .ok b) : runFetch m (.need8 k) pc = runFetch m (k b) (pc + 1) := by
  simp [runFetch, h]

theorem runFetch_need32 {m : Memory} {k : Word → Fetch Instr} {pc w : Word}
    (h : m.read32 pc = .ok w) : runFetch m (.need32 k) pc = runFetch m (k w) (pc + 4) := by
  simp [runFetch, h]

/-- A fetch from memory gives what decoding the bytes there gives, and leaves the program counter
past the bytes consumed. -/
theorem runFetch_of_runList {m : Memory} (hs : m.size ≤ 2 ^ 32) {p : Fetch Instr} {pc : Word}
    {bs rest : List Byte} {i : Instr} (hb : standsAt m pc bs) (h : p.runList bs = .ok i rest) :
    runFetch m p pc = .ok (i, pc + BitVec.ofNat 32 (bs.length - rest.length)) := by
  induction p generalizing bs pc with
  | done a =>
    rw [Fetch.runList_done] at h
    cases h
    simp [runFetch]
  | reject op sel => rw [Fetch.runList_reject] at h; cases h
  | need8 k ih =>
    match bs, h, hb with
    | b :: bs, h, hb =>
      rw [runFetch_need8 (read8_standsAt hb)]
      have ht : standsAt m (pc + 1) bs := standsAt_tail hs 1 (bs := [b]) rfl hb
      rw [ih b ht h]
      have hl := runList_rest_le (p := k b) h
      have hsum : (b :: bs).length - rest.length = 1 + (bs.length - rest.length) := by simp; omega
      rw [hsum, BitVec.ofNat_add, ← BitVec.add_assoc]
      rfl
  | need32 k ih =>
    match bs, h, hb with
    | b0 :: b1 :: b2 :: b3 :: bs, h, hb =>
      rw [runFetch_need32 (read32_standsAt hb)]
      have ht : standsAt m (pc + 4) bs := standsAt_tail hs 4 (bs := [b0, b1, b2, b3]) rfl hb
      rw [ih _ ht h]
      have hl := runList_rest_le (p := k (le32 b0 b1 b2 b3)) h
      have hsum : (b0 :: b1 :: b2 :: b3 :: bs).length - rest.length = 4 + (bs.length - rest.length) := by
        simp; omega
      rw [hsum, BitVec.ofNat_add, ← BitVec.add_assoc]
      rfl

/-- Bytes that decode to an unsupported opcode or selector make the fetch fatal (R97, R98). -/
theorem runFetch_of_unsupported {m : Memory} (hs : m.size ≤ 2 ^ 32) {p : Fetch Instr} {pc : Word}
    {bs : List Byte} {op : Byte} {sel : Option (BitVec 3)} (hb : standsAt m pc bs)
    (h : p.runList bs = .unsupported op sel) :
    runFetch m p pc = .error (.unsupportedOpcode op sel) := by
  induction p generalizing bs pc with
  | done a => rw [Fetch.runList_done] at h; cases h
  | reject o e =>
    rw [Fetch.runList_reject] at h
    cases h
    rfl
  | need8 k ih =>
    match bs, h, hb with
    | b :: bs, h, hb =>
      rw [runFetch_need8 (read8_standsAt hb)]
      exact ih b (standsAt_tail hs 1 (bs := [b]) rfl hb) h
  | need32 k ih =>
    match bs, h, hb with
    | b0 :: b1 :: b2 :: b3 :: bs, h, hb =>
      rw [runFetch_need32 (read32_standsAt hb)]
      exact ih _ (standsAt_tail hs 4 (bs := [b0, b1, b2, b3]) rfl hb) h

/-- An instruction that memory ends in the middle of is out of bounds at the end of memory (R55). -/
theorem runFetch_of_truncated {m : Memory} (hs : m.size < 2 ^ 32) {p : Fetch Instr} {pc : Word}
    {bs : List Byte} (hb : standsAt m pc bs) (he : pc.toNat + bs.length = m.size)
    (h : p.runList bs = .truncated) : runFetch m p pc = .error (.outOfBounds m.size) := by
  have next : ∀ n, n ≤ bs.length → (pc + BitVec.ofNat 32 n).toNat = pc.toNat + n := by
    intro n hn
    have := pc.isLt
    simp only [BitVec.toNat_add, BitVec.toNat_ofNat]
    omega
  induction p generalizing bs pc with
  | done a => rw [Fetch.runList_done] at h; cases h
  | reject o e => rw [Fetch.runList_reject] at h; cases h
  | need8 k ih =>
    match bs, h, hb, he, next with
    | [], h, hb, he, next =>
      have : m.size < pc.toNat + 1 := by simp at he; omega
      simp only [runFetch, Memory.read8_err this]
      simp at he
      rw [he, Nat.max_self]
    | b :: bs, h, hb, he, next =>
      rw [runFetch_need8 (read8_standsAt hb)]
      have e1 : (pc + 1).toNat = pc.toNat + 1 := next 1 (by simp)
      simp only [List.length_cons] at he
      have he' : (pc + 1).toNat + bs.length = m.size := by rw [e1]; omega
      refine ih b (standsAt_tail hs.le 1 (bs := [b]) rfl hb) he' h fun n hn => ?_
      have := (pc + 1).isLt
      rw [BitVec.toNat_add, BitVec.toNat_ofNat]
      omega
  | need32 k ih =>
    have short : bs.length < 4 → runFetch m (.need32 k) pc = .error (.outOfBounds m.size) := by
      intro hl
      have : m.size < pc.toNat + 4 := by omega
      simp only [runFetch, Memory.read32_err this]
      congr 2
      omega
    match bs, h, hb, he, next with
    | [], _, _, _, _ => exact short (by simp)
    | [_], _, _, _, _ => exact short (by simp)
    | [_, _], _, _, _, _ => exact short (by simp)
    | [_, _, _], _, _, _, _ => exact short (by simp)
    | b0 :: b1 :: b2 :: b3 :: bs, h, hb, he, next =>
      rw [runFetch_need32 (read32_standsAt hb)]
      have e1 : (pc + 4).toNat = pc.toNat + 4 := next 4 (by simp)
      simp only [List.length_cons] at he
      have he' : (pc + 4).toNat + bs.length = m.size := by rw [e1]; omega
      refine ih _ (standsAt_tail hs.le 4 (bs := [b0, b1, b2, b3]) rfl hb) he' h fun n hn => ?_
      have := (pc + 4).isLt
      rw [BitVec.toNat_add, BitVec.toNat_ofNat]
      omega

end Sys2Proof.Machine
end

