-- ==== Sys2Proof/Laws/Flags.lean ====
section
/-! SUPPORT. The laws of the flags codec (R27) and of the flag engine (R170, R171). -/

namespace Sys2Proof.Machine

/-- R27: a flag write changes exactly its one bit. -/
theorem getLsbD_putBit (f : Word) {k : Nat} (hk : k < 32) (b : Bool) (j : Nat) :
    (putBit f k b).getLsbD j = if j = k then b else f.getLsbD j := by
  by_cases hj : j < 32
  · by_cases e : j = k
    · subst e; cases b <;> simp [putBit, hj]
    · cases b <;> simp [putBit, hj, e]
  · have h1 : j ≠ k := by omega
    rw [BitVec.getLsbD_of_ge _ _ (by omega), if_neg h1, BitVec.getLsbD_of_ge _ _ (by omega)]

/-- R170, R27: every bit of the flags word after `compute_sub_flags`. -/
theorem getLsbD_subFlags (a b f : Word) (j : Nat) :
    (subFlags a b f).getLsbD j =
      if j = 11 then subOverflow a b else if j = 7 then subSign a b
      else if j = 6 then subZero a b else if j = 0 then subCarry a b else f.getLsbD j := by
  simp [subFlags, getLsbD_putBit, cfBit, zfBit, sfBit, ofBit]

@[simp] theorem carryFlag_subFlags (a b f : Word) : carryFlag (subFlags a b f) = subCarry a b := by
  rw [carryFlag, getLsbD_subFlags]; rfl

@[simp] theorem zeroFlag_subFlags (a b f : Word) : zeroFlag (subFlags a b f) = subZero a b := by
  rw [zeroFlag, getLsbD_subFlags]; rfl

@[simp] theorem signFlag_subFlags (a b f : Word) : signFlag (subFlags a b f) = subSign a b := by
  rw [signFlag, getLsbD_subFlags]; rfl

@[simp] theorem overflowFlag_subFlags (a b f : Word) :
    overflowFlag (subFlags a b f) = subOverflow a b := by
  rw [overflowFlag, getLsbD_subFlags]; rfl

theorem subFlags_inert (a b f : Word) {j : Nat} (h : isFlagBit j = false) :
    (subFlags a b f).getLsbD j = f.getLsbD j := by
  rw [getLsbD_subFlags]
  simp [isFlagBit] at h
  simp [h]

@[simp] theorem subResult_eq (a b : Word) : subResult a b = a - b := by
  apply BitVec.eq_of_toNat_eq
  have ha := a.isLt
  have hb := b.isLt
  simp [subResult, wideSub]
  omega

theorem subCarry_eq (a b : Word) : subCarry a b = decide (a.toNat < b.toNat) := by
  have ha := a.isLt
  have hb := b.isLt
  simp only [subCarry, wideSub, BitVec.getLsbD, BitVec.toNat_sub, BitVec.toNat_setWidth]
  rw [Nat.testBit_eq_decide_div_mod_eq]
  congr 1
  simp only [eq_iff_iff]
  omega

theorem subZero_eq (a b : Word) : subZero a b = decide (a = b) := by
  have : a - b = 0 ↔ a = b := by
    constructor
    · intro h; bv_omega
    · rintro rfl; simp
  simp only [subZero, subResult_eq, beq_eq_decide, this]

theorem subSign_eq (a b : Word) : subSign a b = (a - b).getLsbD 31 := by simp [subSign]

theorem toInt_eq_bit (w : Word) :
    w.toInt = (w.toNat : Int) - (if w.getLsbD 31 then 4294967296 else 0) := by
  rw [BitVec.toInt_eq_msb_cond, BitVec.msb_eq_getLsbD_last]
  simp
  split <;> simp

theorem bit31 (w : Word) : w.getLsbD 31 = decide (2147483648 ≤ w.toNat) := by
  have := w.isLt
  rw [BitVec.getLsbD, Nat.testBit_eq_decide_div_mod_eq]
  congr 1
  simp only [eq_iff_iff]
  omega

/-- R171: OF says the exact signed difference does not fit in 32 bits. -/
theorem subOverflow_iff (a b : Word) :
    subOverflow a b = true ↔ a.toInt - b.toInt < -2147483648 ∨ 2147483647 < a.toInt - b.toInt := by
  have ha := a.isLt
  have hb := b.isLt
  have hr := BitVec.toNat_sub a b
  simp only [subOverflow, subResult_eq, toInt_eq_bit, bit31, hr]
  by_cases h1 : 2147483648 ≤ a.toNat <;> by_cases h2 : 2147483648 ≤ b.toNat <;>
    simp [h1, h2] <;> omega

/-- R171: after the call SF differs from OF exactly when a is below b as signed numbers. -/
theorem less_iff (a b : Word) : (subSign a b != subOverflow a b) = true ↔ a.toInt < b.toInt := by
  have ha := a.isLt
  have hb := b.isLt
  have hr := BitVec.toNat_sub a b
  simp only [subOverflow, subSign, subResult_eq, toInt_eq_bit, bit31, hr]
  by_cases h1 : 2147483648 ≤ a.toNat <;> by_cases h2 : 2147483648 ≤ b.toNat <;>
    simp [h1, h2] <;> omega

end Sys2Proof.Machine
end

