-- ==== Sys2Proof/Laws/Operands.lean ====
section
/-! SUPPORT. What each shared operation over operands, stack and ports can answer, said once. -/

namespace Sys2Proof.Machine

@[simp] theorem except_map_ok {ε α β : Type} (f : α → β) (a : α) :
    Except.map f (.ok a : Except ε α) = .ok (f a) := rfl

@[simp] theorem except_map_error {ε α β : Type} (f : α → β) (e : ε) :
    Except.map f (.error e : Except ε α) = .error e := rfl

@[simp] theorem except_bind_ok {ε α β : Type} (a : α) (k : α → Except ε β) :
    (Except.ok a).bind k = k a := rfl

@[simp] theorem except_bind_error {ε α β : Type} (e : ε) (k : α → Except ε β) :
    (Except.error e : Except ε α).bind k = .error e := rfl

theorem complete_next {r : Except Fatal State} {t : State} : complete r = .next t ↔ r = .ok t := by
  cases r <;> simp [complete]

@[simp] theorem complete_ok (t : State) : complete (.ok t) = .next t := rfl

@[simp] theorem complete_error (c : Fatal) : complete (.error c) = .fault (.fatal c) := rfl

/-! ### Loads and stores -/

theorem State.load32_cases (s : State) (a : Word) :
    (a.toNat + 4 ≤ s.mem.size ∧ s.load32 a = .ok (s.mem.wordAt a.toNat)) ∨
      (s.mem.size < a.toNat + 4 ∧ s.load32 a = .error (.outOfBounds (max a.toNat s.mem.size))) :=
  s.mem.read32_cases a

theorem State.load8_cases (s : State) (a : Word) :
    (a.toNat + 1 ≤ s.mem.size ∧ s.load8 a = .ok (s.mem.byte a.toNat)) ∨
      (s.mem.size < a.toNat + 1 ∧ s.load8 a = .error (.outOfBounds (max a.toNat s.mem.size))) :=
  s.mem.read8_cases a

theorem State.store32_cases (s : State) (a v : Word) :
    (a.toNat + 4 ≤ s.mem.size ∧ s.store32 a v = .ok (s.setMem (s.mem.setWord a.toNat v))) ∨
      (s.mem.size < a.toNat + 4 ∧
        s.store32 a v = .error (.outOfBounds (max a.toNat s.mem.size))) := by
  rcases Nat.lt_or_ge s.mem.size (a.toNat + 4) with h | h
  · exact .inr ⟨h, by simp [State.store32, Memory.write32_err h]⟩
  · exact .inl ⟨h, by simp [State.store32, Memory.write32_eq h]⟩

theorem State.store8_cases (s : State) (a : Word) (v : Byte) :
    (a.toNat + 1 ≤ s.mem.size ∧ s.store8 a v = .ok (s.setMem (s.mem.setByte a.toNat v))) ∨
      (s.mem.size < a.toNat + 1 ∧
        s.store8 a v = .error (.outOfBounds (max a.toNat s.mem.size))) := by
  rcases Nat.lt_or_ge s.mem.size (a.toNat + 1) with h | h
  · exact .inr ⟨h, by simp [State.store8, Memory.write8_err h]⟩
  · exact .inl ⟨h, by simp [State.store8, Memory.write8_eq h]⟩

/-! ### Operands (R125 to R131) -/

/-- An effective address depends on the general registers alone. -/
theorem State.effectiveAddress_congr {s t : State} (h : t.regs = s.regs) (m : MemRef) :
    t.effectiveAddress m = s.effectiveAddress m := by
  have hr : ∀ r, t.reg r = s.reg r := fun r => by unfold State.reg; rw [h]
  cases m <;> simp [State.effectiveAddress, hr]

theorem State.readRM32_mem {s : State} {m : MemRef} {a : Word} (h : s.effectiveAddress m = .ok a)
    (hb : a.toNat + 4 ≤ s.mem.size) : s.readRM32 (.mem m) = .ok (s.mem.wordAt a.toNat) := by
  simp [State.readRM32, h, State.load32, Memory.read32_eq hb]

theorem State.readRM8_mem {s : State} {m : MemRef} {a : Word} (h : s.effectiveAddress m = .ok a)
    (hb : a.toNat + 1 ≤ s.mem.size) : s.readRM8 (.mem m) = .ok (s.mem.byte a.toNat) := by
  simp [State.readRM8, h, State.load8, Memory.read8_eq hb]

theorem State.writeRM32_mem {s : State} {m : MemRef} {a : Word} (h : s.effectiveAddress m = .ok a)
    (hb : a.toNat + 4 ≤ s.mem.size) (v : Word) :
    s.writeRM32 (.mem m) v = .ok (s.setMem (s.mem.setWord a.toNat v)) := by
  simp [State.writeRM32, h, State.store32, Memory.write32_eq hb]

theorem State.writeRM8_mem {s : State} {m : MemRef} {a : Word} (h : s.effectiveAddress m = .ok a)
    (hb : a.toNat + 1 ≤ s.mem.size) (v : Byte) :
    s.writeRM8 (.mem m) v = .ok (s.setMem (s.mem.setByte a.toNat v)) := by
  simp [State.writeRM8, h, State.store8, Memory.write8_eq hb]

@[simp] theorem State.readRM32_reg (s : State) (r : Reg32) : s.readRM32 (.reg r) = .ok (s.reg r) := rfl

@[simp] theorem State.readRM8_reg (s : State) (r : Reg8) : s.readRM8 (.reg r) = .ok (s.reg8 r) := rfl

@[simp] theorem State.writeRM32_reg (s : State) (r : Reg32) (v : Word) :
    s.writeRM32 (.reg r) v = .ok (s.setReg r v) := rfl

@[simp] theorem State.writeRM8_reg (s : State) (r : Reg8) (v : Byte) :
    s.writeRM8 (.reg r) v = .ok (s.setReg8 r v) := rfl

@[simp] theorem State.updateRM32_reg (s : State) (r : Reg32) (f : Word → Word) :
    s.updateRM32 (.reg r) f = .ok (s.setReg r (f (s.reg r))) := rfl

theorem State.updateRM32_mem {s : State} {m : MemRef} {a : Word} (h : s.effectiveAddress m = .ok a)
    (hb : a.toNat + 4 ≤ s.mem.size) (f : Word → Word) :
    s.updateRM32 (.mem m) f =
      .ok (s.setMem (s.mem.setWord a.toNat (f (s.mem.wordAt a.toNat)))) := by
  rw [State.updateRM32, State.readRM32_mem h hb]
  exact State.writeRM32_mem h hb _

/-- Everything a successful 32-bit operand write does: one register, or four bytes of memory. -/
theorem State.writeRM32_ok {s t : State} {d : RM Reg32} {v : Word} (h : s.writeRM32 d v = .ok t) :
    (∃ r, d = .reg r ∧ t = s.setReg r v) ∨
      ∃ m a, d = .mem m ∧ s.effectiveAddress m = .ok a ∧ a.toNat + 4 ≤ s.mem.size ∧
        t = s.setMem (s.mem.setWord a.toNat v) := by
  cases d with
  | reg r => exact .inl ⟨r, rfl, by simpa using h.symm⟩
  | mem m =>
    cases he : s.effectiveAddress m with
    | error c => simp [State.writeRM32, he] at h
    | ok a =>
      simp only [State.writeRM32, he, except_bind_ok] at h
      rcases s.store32_cases a v with ⟨hb, hs⟩ | ⟨-, hs⟩
      · rw [hs] at h
        exact .inr ⟨m, a, rfl, he, hb, by simpa using h.symm⟩
      · rw [hs] at h; cases h

/-- Everything a successful 8-bit operand write does: one view, or one byte of memory. -/
theorem State.writeRM8_ok {s t : State} {d : RM Reg8} {v : Byte} (h : s.writeRM8 d v = .ok t) :
    (∃ r, d = .reg r ∧ t = s.setReg8 r v) ∨
      ∃ m a, d = .mem m ∧ s.effectiveAddress m = .ok a ∧ a.toNat + 1 ≤ s.mem.size ∧
        t = s.setMem (s.mem.setByte a.toNat v) := by
  cases d with
  | reg r => exact .inl ⟨r, rfl, by simpa using h.symm⟩
  | mem m =>
    cases he : s.effectiveAddress m with
    | error c => simp [State.writeRM8, he] at h
    | ok a =>
      simp only [State.writeRM8, he, except_bind_ok] at h
      rcases s.store8_cases a v with ⟨hb, hs⟩ | ⟨-, hs⟩
      · rw [hs] at h
        exact .inr ⟨m, a, rfl, he, hb, by simpa using h.symm⟩
      · rw [hs] at h; cases h

theorem except_map_eq_ok {ε α β : Type} {r : Except ε α} {f : α → β} {b : β}
    (h : Except.map f r = .ok b) : ∃ a, r = .ok a ∧ f a = b := by
  cases r with
  | error e => cases h
  | ok a => exact ⟨a, rfl, by simpa using h⟩

theorem except_bind_eq_ok {ε α β : Type} {r : Except ε α} {k : α → Except ε β} {b : β}
    (h : r.bind k = .ok b) : ∃ a, r = .ok a ∧ k a = .ok b := by
  cases r with
  | error e => cases h
  | ok a => exact ⟨a, rfl, h⟩

/-! ### Stack (R230, R231) -/

theorem State.push32_eq {s : State} (v : Word)
    (h : (s.reg .esp - 4).toNat + 4 ≤ s.mem.size) :
    s.push32 v = .ok ((s.setReg .esp (s.reg .esp - 4)).setMem
      (s.mem.setWord (s.reg .esp - 4).toNat v)) := by
  simp only [State.push32, State.reg_setReg_same, State.store32, State.setReg_mem,
    Memory.write32_eq h, except_map_ok]

theorem State.push32_ok {s t : State} {v : Word} (h : s.push32 v = .ok t) :
    (s.reg .esp - 4).toNat + 4 ≤ s.mem.size ∧
      t = (s.setReg .esp (s.reg .esp - 4)).setMem (s.mem.setWord (s.reg .esp - 4).toNat v) := by
  simp only [State.push32, State.reg_setReg_same] at h
  rcases (s.setReg .esp (s.reg .esp - 4)).store32_cases (s.reg .esp - 4) v with ⟨hb, hs⟩ | ⟨-, hs⟩
  · rw [hs] at h
    exact ⟨hb, by simpa using h.symm⟩
  · rw [hs] at h; cases h

theorem State.pop32_eq {s : State} (h : (s.reg .esp).toNat + 4 ≤ s.mem.size) :
    s.pop32 = .ok (s.mem.wordAt (s.reg .esp).toNat, s.setReg .esp (s.reg .esp + 4)) := by
  simp [State.pop32, State.load32, Memory.read32_eq h]

theorem State.pop32_ok {s : State} {p : Word × State} (h : s.pop32 = .ok p) :
    (s.reg .esp).toNat + 4 ≤ s.mem.size ∧
      p = (s.mem.wordAt (s.reg .esp).toNat, s.setReg .esp (s.reg .esp + 4)) := by
  rcases s.load32_cases (s.reg .esp) with ⟨hb, hs⟩ | ⟨-, hs⟩
  · rw [State.pop32, hs] at h
    exact ⟨hb, by simpa using h.symm⟩
  · rw [State.pop32, hs] at h; cases h

/-! ### Ports (R252, R253) -/

theorem State.ioRead_ok {s t : State} {p : BitVec 16} {v : Byte} (h : s.ioRead p = .ok (v, t)) :
    (p ≠ devicePort ∧ v = 0 ∧ t = s) ∨
      ∃ bs, p = devicePort ∧ s.input = v :: bs ∧ t = s.setInput bs := by
  unfold State.ioRead at h
  split_ifs at h with hp
  · cases hi : s.input with
    | nil => rw [hi] at h; cases h
    | cons b bs =>
      rw [hi] at h
      simp only [Except.ok.injEq, Prod.mk.injEq] at h
      obtain ⟨rfl, rfl⟩ := h
      exact .inr ⟨bs, hp, rfl, rfl⟩
  · simp only [Except.ok.injEq, Prod.mk.injEq] at h
    obtain ⟨rfl, rfl⟩ := h
    exact .inl ⟨hp, rfl, rfl⟩

/-! ### The fatal run state (R270) -/

theorem State.enterFatal_runState (s : State) (c : Fatal) : (s.enterFatal c).runState = .fatal c := rfl

theorem State.enterFatal_isFatal (s : State) (c : Fatal) : (s.enterFatal c).isFatal = true := rfl

theorem State.enterFatal_mem_wf {s : State} (h : s.mem.wf) (c : Fatal) : (s.enterFatal c).mem.wf :=
  Memory.applyStores_wf h _

theorem State.enterFatal_mem_size (s : State) (c : Fatal) :
    (s.enterFatal c).mem.size = s.mem.size := Memory.applyStores_size _ _

end Sys2Proof.Machine
end

