-- ==== Sys2Proof/Laws/PerInstr.lean ====
section
/-! SUPPORT. The family RoundTrip of LAWS.json: for one instruction, decoding its encoding gives it
back (R80 to R99), one lemma for each constructor. -/

namespace Sys2Proof.Laws.RoundTrip

/-- Decoding the encoding of a well-formed `i`, whatever bytes follow, gives `i` and those bytes. -/
def Statement (i : Instr) : Prop :=
  i.wellFormed = true → ∀ rest, decode (encode i ++ rest) = .ok i rest

theorem addRm32R32 (d : RM Reg32) (r : Reg32) : Statement (.addRm32R32 d r) := by
  intro hw rest
  simp only [decode, decodeInstr, encode, List.cons_append, Fetch.runList_need8_cons,
    dispatch_opcode, decodeForm]
  rw [runList_decodeModRM Reg32.ofIndex_index _ _ _ hw]
  simp

theorem cmpR32Rm32 (r : Reg32) (d : RM Reg32) : Statement (.cmpR32Rm32 r d) := by
  intro hw rest
  simp only [decode, decodeInstr, encode, List.cons_append, Fetch.runList_need8_cons,
    dispatch_opcode, decodeForm]
  rw [runList_decodeModRM Reg32.ofIndex_index _ _ _ hw]
  simp

theorem pushR32 (r : Reg32) : Statement (.pushR32 r) := by
  intro _ rest
  simp [decode, decodeInstr, encode, dispatch_opWithReg OpForm.pushR32 rfl, opReg_opWithReg OpForm.pushR32 rfl, decodeForm]

theorem popR32 (r : Reg32) : Statement (.popR32 r) := by
  intro _ rest
  simp [decode, decodeInstr, encode, dispatch_opWithReg OpForm.popR32 rfl, opReg_opWithReg OpForm.popR32 rfl, decodeForm]

theorem joRel8 (rel : Byte) : Statement (.joRel8 rel) := by
  intro _ rest
  simp [decode, decodeInstr, encode, decodeForm]

theorem jnoRel8 (rel : Byte) : Statement (.jnoRel8 rel) := by
  intro _ rest
  simp [decode, decodeInstr, encode, decodeForm]

theorem jcRel8 (rel : Byte) : Statement (.jcRel8 rel) := by
  intro _ rest
  simp [decode, decodeInstr, encode, decodeForm]

theorem jncRel8 (rel : Byte) : Statement (.jncRel8 rel) := by
  intro _ rest
  simp [decode, decodeInstr, encode, decodeForm]

theorem jzRel8 (rel : Byte) : Statement (.jzRel8 rel) := by
  intro _ rest
  simp [decode, decodeInstr, encode, decodeForm]

theorem jnzRel8 (rel : Byte) : Statement (.jnzRel8 rel) := by
  intro _ rest
  simp [decode, decodeInstr, encode, decodeForm]

theorem jbeRel8 (rel : Byte) : Statement (.jbeRel8 rel) := by
  intro _ rest
  simp [decode, decodeInstr, encode, decodeForm]

theorem jaRel8 (rel : Byte) : Statement (.jaRel8 rel) := by
  intro _ rest
  simp [decode, decodeInstr, encode, decodeForm]

theorem jsRel8 (rel : Byte) : Statement (.jsRel8 rel) := by
  intro _ rest
  simp [decode, decodeInstr, encode, decodeForm]

theorem jnsRel8 (rel : Byte) : Statement (.jnsRel8 rel) := by
  intro _ rest
  simp [decode, decodeInstr, encode, decodeForm]

theorem jlRel8 (rel : Byte) : Statement (.jlRel8 rel) := by
  intro _ rest
  simp [decode, decodeInstr, encode, decodeForm]

theorem jgeRel8 (rel : Byte) : Statement (.jgeRel8 rel) := by
  intro _ rest
  simp [decode, decodeInstr, encode, decodeForm]

theorem jleRel8 (rel : Byte) : Statement (.jleRel8 rel) := by
  intro _ rest
  simp [decode, decodeInstr, encode, decodeForm]

theorem jgRel8 (rel : Byte) : Statement (.jgRel8 rel) := by
  intro _ rest
  simp [decode, decodeInstr, encode, decodeForm]

theorem addRm32Imm8 (d : RM Reg32) (imm : Byte) : Statement (.addRm32Imm8 d imm) := by
  intro hw rest
  simp only [decode, decodeInstr, encode, List.cons_append, List.append_assoc, Fetch.runList_need8_cons,
    dispatch_opcode, decodeForm]
  rw [runList_decodeModRM Reg32.ofIndex_index _ _ _ hw]
  simp [selAdd]

theorem subRm32Imm8 (d : RM Reg32) (imm : Byte) : Statement (.subRm32Imm8 d imm) := by
  intro hw rest
  simp only [decode, decodeInstr, encode, List.cons_append, List.append_assoc, Fetch.runList_need8_cons,
    dispatch_opcode, decodeForm]
  rw [runList_decodeModRM Reg32.ofIndex_index _ _ _ hw]
  simp [selAdd, selSub]

theorem cmpRm32Imm8 (d : RM Reg32) (imm : Byte) : Statement (.cmpRm32Imm8 d imm) := by
  intro hw rest
  simp only [decode, decodeInstr, encode, List.cons_append, List.append_assoc, Fetch.runList_need8_cons,
    dispatch_opcode, decodeForm]
  rw [runList_decodeModRM Reg32.ofIndex_index _ _ _ hw]
  simp [selAdd, selSub, selCmp]

theorem movRm8R8 (d : RM Reg8) (r : Reg8) : Statement (.movRm8R8 d r) := by
  intro hw rest
  simp only [decode, decodeInstr, encode, List.cons_append, Fetch.runList_need8_cons,
    dispatch_opcode, decodeForm]
  rw [runList_decodeModRM Reg8.ofIndex_index _ _ _ hw]
  simp

theorem movRm32R32 (d : RM Reg32) (r : Reg32) : Statement (.movRm32R32 d r) := by
  intro hw rest
  simp only [decode, decodeInstr, encode, List.cons_append, Fetch.runList_need8_cons,
    dispatch_opcode, decodeForm]
  rw [runList_decodeModRM Reg32.ofIndex_index _ _ _ hw]
  simp

theorem movR8Rm8 (r : Reg8) (d : RM Reg8) : Statement (.movR8Rm8 r d) := by
  intro hw rest
  simp only [decode, decodeInstr, encode, List.cons_append, Fetch.runList_need8_cons,
    dispatch_opcode, decodeForm]
  rw [runList_decodeModRM Reg8.ofIndex_index _ _ _ hw]
  simp

theorem movR32Rm32 (r : Reg32) (d : RM Reg32) : Statement (.movR32Rm32 r d) := by
  intro hw rest
  simp only [decode, decodeInstr, encode, List.cons_append, Fetch.runList_need8_cons,
    dispatch_opcode, decodeForm]
  rw [runList_decodeModRM Reg32.ofIndex_index _ _ _ hw]
  simp

theorem movR8Imm8 (r : Reg8) (imm : Byte) : Statement (.movR8Imm8 r imm) := by
  intro _ rest
  simp [decode, decodeInstr, encode, dispatch_opWithReg OpForm.movR8Imm8 rfl, opReg_opWithReg OpForm.movR8Imm8 rfl, decodeForm]

theorem movR32Imm32 (r : Reg32) (imm : Word) : Statement (.movR32Imm32 r imm) := by
  intro _ rest
  simp [decode, decodeInstr, encode, dispatch_opWithReg OpForm.movR32Imm32 rfl, opReg_opWithReg OpForm.movR32Imm32 rfl, decodeForm]

theorem ret : Statement .ret := by
  intro _ rest
  simp [decode, decodeInstr, encode, decodeForm]

theorem leave : Statement .leave := by
  intro _ rest
  simp [decode, decodeInstr, encode, decodeForm]

theorem callRel32 (rel : Word) : Statement (.callRel32 rel) := by
  intro _ rest
  simp [decode, decodeInstr, encode, decodeForm]

theorem jmpRel32 (rel : Word) : Statement (.jmpRel32 rel) := by
  intro _ rest
  simp [decode, decodeInstr, encode, decodeForm]

theorem jmpRel8 (rel : Byte) : Statement (.jmpRel8 rel) := by
  intro _ rest
  simp [decode, decodeInstr, encode, decodeForm]

theorem inAlDx : Statement .inAlDx := by
  intro _ rest
  simp [decode, decodeInstr, encode, decodeForm]

theorem outDxAl : Statement .outDxAl := by
  intro _ rest
  simp [decode, decodeInstr, encode, decodeForm]

theorem incRm32 (d : RM Reg32) : Statement (.incRm32 d) := by
  intro hw rest
  simp only [decode, decodeInstr, encode, List.cons_append, Fetch.runList_need8_cons,
    dispatch_opcode, decodeForm]
  rw [runList_decodeModRM Reg32.ofIndex_index _ _ _ hw]
  simp [selInc]

theorem decRm32 (d : RM Reg32) : Statement (.decRm32 d) := by
  intro hw rest
  simp only [decode, decodeInstr, encode, List.cons_append, Fetch.runList_need8_cons,
    dispatch_opcode, decodeForm]
  rw [runList_decodeModRM Reg32.ofIndex_index _ _ _ hw]
  simp [selInc, selDec]

end Sys2Proof.Laws.RoundTrip
end

