-- ==== Sys2Proof/Laws/Step.lean ====
section
/-! SUPPORT. What an instruction and a step can do, said once. -/

namespace Sys2Proof.Machine

/-- What every completed instruction keeps, whatever it is: the run state, the memory size, the
model's counter and the canonical form of memory; and the flags are as before or the result of one
flag-writing subtraction. -/
structure Keeps (s t : State) : Prop where
  runState : t.runState = s.runState
  size : t.mem.size = s.mem.size
  freeCount : t.freeCount = s.freeCount
  wf : s.mem.wf → t.mem.wf
  flags : t.flags = s.flags ∨ ∃ a b, t.flags = subFlags a b s.flags

theorem Keeps.refl (s : State) : Keeps s s := ⟨rfl, rfl, rfl, id, .inl rfl⟩

/-- A change of registers, program counter or streams after the rest keeps what was kept. -/
theorem Keeps.of_eq {s t u : State} (h : Keeps s t) (hr : u.runState = t.runState)
    (hm : u.mem = t.mem) (hf : u.flags = t.flags) (hc : u.freeCount = t.freeCount) : Keeps s u :=
  ⟨hr.trans h.runState, hm ▸ h.size, hc.trans h.freeCount, fun w => hm ▸ h.wf w, hf ▸ h.flags⟩

theorem Keeps.setReg {s t : State} (h : Keeps s t) (r : Reg32) (v : Word) : Keeps s (t.setReg r v) :=
  h.of_eq rfl rfl rfl rfl

theorem Keeps.setReg8 {s t : State} (h : Keeps s t) (r : Reg8) (v : Byte) : Keeps s (t.setReg8 r v) :=
  h.of_eq rfl rfl rfl rfl

theorem Keeps.setPc {s t : State} (h : Keeps s t) (v : Word) : Keeps s (t.setPc v) :=
  h.of_eq rfl rfl rfl rfl

theorem Keeps.setWord (s : State) (a : Nat) (v : Word) : Keeps s (s.setMem (s.mem.setWord a v)) :=
  ⟨rfl, by simp, rfl, fun w => Memory.setWord_wf w a v, .inl rfl⟩

theorem Keeps.setByte (s : State) (a : Nat) (v : Byte) : Keeps s (s.setMem (s.mem.setByte a v)) :=
  ⟨rfl, by simp, rfl, fun w => Memory.setByte_wf w a v, .inl rfl⟩

/-- Flags written by a subtraction after a step that left them alone. -/
theorem Keeps.subtract {s t : State} (h : Keeps s t) (hf : t.flags = s.flags) (a b : Word) :
    Keeps s (t.computeSubFlags a b) :=
  ⟨h.runState, h.size, h.freeCount, h.wf, .inr ⟨a, b, by simp [State.computeSubFlags, hf]⟩⟩

theorem State.writeRM32_keeps {s t : State} {d : RM Reg32} {v : Word} (h : s.writeRM32 d v = .ok t) :
    Keeps s t ∧ t.flags = s.flags ∧ t.pc = s.pc ∧ t.input = s.input ∧ t.output = s.output := by
  rcases State.writeRM32_ok h with ⟨r, -, rfl⟩ | ⟨m, a, -, -, -, rfl⟩
  · exact ⟨(Keeps.refl s).setReg r v, rfl, rfl, rfl, rfl⟩
  · exact ⟨Keeps.setWord s _ _, rfl, rfl, rfl, rfl⟩

theorem State.writeRM8_keeps {s t : State} {d : RM Reg8} {v : Byte} (h : s.writeRM8 d v = .ok t) :
    Keeps s t ∧ t.flags = s.flags ∧ t.pc = s.pc ∧ t.input = s.input ∧ t.output = s.output := by
  rcases State.writeRM8_ok h with ⟨r, -, rfl⟩ | ⟨m, a, -, -, -, rfl⟩
  · exact ⟨(Keeps.refl s).setReg8 r v, rfl, rfl, rfl, rfl⟩
  · exact ⟨Keeps.setByte s _ _, rfl, rfl, rfl, rfl⟩

theorem State.updateRM32_ok {s t : State} {d : RM Reg32} {f : Word → Word}
    (h : s.updateRM32 d f = .ok t) : ∃ v, s.readRM32 d = .ok v ∧ s.writeRM32 d (f v) = .ok t :=
  except_bind_eq_ok h

theorem State.push32_keeps {s t : State} {v : Word} (h : s.push32 v = .ok t) :
    Keeps s t ∧ t.flags = s.flags := by
  obtain ⟨-, rfl⟩ := State.push32_ok h
  exact ⟨(Keeps.setWord s _ _).of_eq rfl rfl rfl rfl, rfl⟩

theorem State.pop32_keeps {s : State} {p : Word × State} (h : s.pop32 = .ok p) :
    Keeps s p.2 ∧ p.2.flags = s.flags := by
  obtain ⟨-, rfl⟩ := State.pop32_ok h
  exact ⟨(Keeps.refl s).setReg _ _, rfl⟩

theorem State.jumpIf_keeps (s : State) (c : Bool) (rel : Byte) : Keeps s (s.jumpIf c rel) := by
  cases c
  · exact Keeps.refl s
  · exact (Keeps.refl s).setPc _

theorem updateRM32_complete_keeps {s t : State} {d : RM Reg32} {f : Word → Word}
    (h : complete (s.updateRM32 d f) = .next t) : Keeps s t := by
  obtain ⟨v, -, hw⟩ := State.updateRM32_ok (complete_next.mp h)
  exact (State.writeRM32_keeps hw).1

theorem next_inj {s t : State} (h : (Host.Outcome.next s : Out) = .next t) : s = t := by
  cases h; rfl

/-- What every instruction that completes keeps. -/
theorem exec_keeps {i : Instr} {s t : State} (h : exec i s = .next t) : Keeps s t := by
  cases i with
  | addRm32R32 d r => exact updateRM32_complete_keeps h
  | addRm32Imm8 d imm => exact updateRM32_complete_keeps h
  | incRm32 d => exact updateRM32_complete_keeps h
  | decRm32 d => exact updateRM32_complete_keeps h
  | cmpR32Rm32 r d =>
    obtain ⟨b, -, rfl⟩ := except_map_eq_ok (complete_next.mp h)
    exact (Keeps.refl s).subtract rfl _ _
  | cmpRm32Imm8 d imm =>
    obtain ⟨a, -, rfl⟩ := except_map_eq_ok (complete_next.mp h)
    exact (Keeps.refl s).subtract rfl _ _
  | subRm32Imm8 d imm =>
    obtain ⟨a, -, h⟩ := except_bind_eq_ok (complete_next.mp h)
    obtain ⟨u, hu, rfl⟩ := except_map_eq_ok h
    have k := State.writeRM32_keeps hu
    exact k.1.subtract k.2.1 _ _
  | movRm8R8 d r => exact (State.writeRM8_keeps (complete_next.mp h)).1
  | movRm32R32 d r => exact (State.writeRM32_keeps (complete_next.mp h)).1
  | movR8Rm8 r d =>
    obtain ⟨v, -, rfl⟩ := except_map_eq_ok (complete_next.mp h)
    exact (Keeps.refl s).setReg8 _ _
  | movR32Rm32 r d =>
    obtain ⟨v, -, rfl⟩ := except_map_eq_ok (complete_next.mp h)
    exact (Keeps.refl s).setReg _ _
  | movR8Imm8 r imm => cases h; exact (Keeps.refl s).setReg8 _ _
  | movR32Imm32 r imm => cases h; exact (Keeps.refl s).setReg _ _
  | pushR32 r => exact (State.push32_keeps (complete_next.mp h)).1
  | popR32 r =>
    obtain ⟨p, hp, rfl⟩ := except_map_eq_ok (complete_next.mp h)
    exact (State.pop32_keeps hp).1.setReg _ _
  | leave =>
    obtain ⟨p, hp, rfl⟩ := except_map_eq_ok (complete_next.mp h)
    have k := (State.pop32_keeps hp).1
    exact Keeps.setReg (s := s) ⟨k.runState, k.size, k.freeCount, k.wf, k.flags⟩ _ _
  | callRel32 rel =>
    obtain ⟨u, hu, rfl⟩ := except_map_eq_ok (complete_next.mp h)
    exact (State.push32_keeps hu).1.setPc _
  | ret =>
    obtain ⟨p, hp, rfl⟩ := except_map_eq_ok (complete_next.mp h)
    exact (State.pop32_keeps hp).1.setPc _
  | jmpRel32 rel => cases h; exact (Keeps.refl s).setPc _
  | jmpRel8 rel => cases h; exact (Keeps.refl s).setPc _
  | joRel8 rel => cases h; exact s.jumpIf_keeps _ _
  | jnoRel8 rel => cases h; exact s.jumpIf_keeps _ _
  | jcRel8 rel => cases h; exact s.jumpIf_keeps _ _
  | jncRel8 rel => cases h; exact s.jumpIf_keeps _ _
  | jzRel8 rel => cases h; exact s.jumpIf_keeps _ _
  | jnzRel8 rel => cases h; exact s.jumpIf_keeps _ _
  | jbeRel8 rel => cases h; exact s.jumpIf_keeps _ _
  | jaRel8 rel => cases h; exact s.jumpIf_keeps _ _
  | jsRel8 rel => cases h; exact s.jumpIf_keeps _ _
  | jnsRel8 rel => cases h; exact s.jumpIf_keeps _ _
  | jlRel8 rel => cases h; exact s.jumpIf_keeps _ _
  | jgeRel8 rel => cases h; exact s.jumpIf_keeps _ _
  | jleRel8 rel => cases h; exact s.jumpIf_keeps _ _
  | jgRel8 rel => cases h; exact s.jumpIf_keeps _ _
  | inAlDx =>
    simp only [exec, execInAlDx] at h
    cases hr : s.ioRead s.port with
    | error f => rw [hr] at h; cases h
    | ok p =>
      obtain ⟨v, u⟩ := p
      rw [hr] at h
      cases h
      rcases State.ioRead_ok hr with ⟨-, -, rfl⟩ | ⟨bs, -, -, rfl⟩
      · exact (Keeps.refl _).setReg8 _ _
      · exact (Keeps.refl s).of_eq rfl rfl rfl rfl
  | outDxAl =>
    cases h
    unfold State.ioWrite
    split
    · exact (Keeps.refl s).of_eq rfl rfl rfl rfl
    · exact Keeps.refl s

/-! ### Steps (R315, R318) -/

theorem step_ended {s : State} (h : s.runState ≠ .running) : step s = .next s := by
  unfold step
  cases hr : s.runState with
  | running => exact absurd hr h
  | stopped => rfl
  | fatal c => rfl

theorem step_of_fetch {s : State} {i : Instr} {pc : Word} (hr : s.runState = .running)
    (hf : fetchInstr s.mem s.pc = .ok (i, pc)) : step s = afterInstr s (exec i (s.setPc pc)) := by
  simp [step, hr, hf]

theorem step_of_fetch_error {s : State} {c : Fatal} (hr : s.runState = .running)
    (hf : fetchInstr s.mem s.pc = .error c) : step s = .next (s.enterFatal c) := by
  simp [step, hr, hf]

/-- Everything a step that answers a state can have done. -/
theorem step_next_cases {s t : State} (h : step s = .next t) :
    (s.runState ≠ .running ∧ t = s) ∨
      (s.runState = .running ∧ ∃ c, t = s.enterFatal c) ∨
      (s.runState = .running ∧ ∃ i pc u, fetchInstr s.mem s.pc = .ok (i, pc) ∧
        exec i (s.setPc pc) = .next u ∧ t = u.checkSentinel) := by
  by_cases hr : s.runState = .running
  · refine .inr ?_
    cases hf : fetchInstr s.mem s.pc with
    | error c =>
      rw [step_of_fetch_error hr hf] at h
      exact .inl ⟨hr, c, (next_inj h).symm⟩
    | ok p =>
      obtain ⟨i, pc⟩ := p
      rw [step_of_fetch hr hf] at h
      cases he : exec i (s.setPc pc) with
      | next u =>
        rw [he] at h
        exact .inr ⟨hr, i, pc, u, rfl, he, (next_inj h).symm⟩
      | fault f =>
        rw [he] at h
        cases f with
        | fatal c => exact .inl ⟨hr, c, (next_inj h).symm⟩
        | blockedOnInput => cases h
      | refused r => rw [he] at h; cases h
  · rw [step_ended hr] at h
    exact .inl ⟨hr, (next_inj h).symm⟩

end Sys2Proof.Machine
end

