-- ==== Sys2Proof/Tests/Slice0.lean ====
section
/-! SUPPORT. The model's own tests. Expected results are those of spec/95_test_vectors.md (named as
there: A4, B6.10, ...) or of the rule cited; `witness_<Name>` shows that the hypotheses of the
statement `<Name>` can be met, at the boundary values of each clause. -/

namespace Sys2Proof.Tests

open Sys2Proof Sys2Proof.Machine

/-! ### Helpers -/

/-- The state of the single-step vectors: pc 0100, ESP 9000, all else 0, memory of 0x10000 bytes. -/
def base : State := State.create 0x10000 0x100 0x9000

/-- `s` with bytes at its program counter. -/
def code (s : State) (bs : List Byte) : State := s.setMem (placeBytes s.mem s.pc bs)

/-- `s` with bytes at an address. -/
def put (s : State) (a : Nat) (bs : List Byte) : State := s.setMem (s.mem.loadImage a bs)

/-- Whether an outcome is a next state that meets a test. -/
def nextIs (o : Out) (p : State → Bool) : Bool :=
  match o with
  | .next t => p t
  | .fault _ => false
  | .refused _ => false

/-- The bytes of memory at an address. -/
def bytesAt (s : State) (a n : Nat) : List Byte := (List.range n).map fun k => s.mem.byte (a + k)

/-- Whether a step ends in the given fatal run state. -/
def fatalIs (s : State) (c : Fatal) : Bool := nextIs (step s) fun t => t.runState == .fatal c

/-- Whether an outcome is the stuck input port. -/
def blocked (o : Out) : Bool :=
  match o with
  | .next _ => false
  | .fault f => f == .blockedOnInput
  | .refused _ => false

/-! ### WellFormed: one ill-formed term for each check (R84, R124) -/

theorem test_wf_base_esp : (Instr.movR32Rm32 .eax (.mem (.base .esp))).wellFormed = false := by decide
theorem test_wf_base_ebp : (Instr.incRm32 (.mem (.base .ebp))).wellFormed = false := by decide
theorem test_wf_disp8_esp : (Instr.movRm8R8 (.mem (.baseDisp8 .esp 0)) .al).wellFormed = false := by decide
theorem test_wf_disp32_esp :
    (Instr.subRm32Imm8 (.mem (.baseDisp32 .esp 0)) 1).wellFormed = false := by decide

/-- Each of the eleven forms with a ModRM byte checks its operand. -/
theorem test_wf_every_modrm_form :
    (rm32Instrs (.mem (.base .esp)) .eax 0 ++ rm8Instrs (.mem (.base .esp)) .al).all
      (fun i => !i.wellFormed) = true := by decide

/-- EBP with a displacement and ESP in mode 3 are well formed. -/
theorem test_wf_accepts :
    (Instr.movR32Rm32 .eax (.mem (.baseDisp8 .ebp 0))).wellFormed = true ∧
      (Instr.movR32Rm32 .eax (.reg .esp)).wellFormed = true := by decide

/-! ### Decoding: words written out from R93, R82 and 95_test_vectors.md -/

theorem test_decode_add_rm32_r32 :
    decode [0x01, 0xC8] = .ok (.addRm32R32 (.reg .eax) .ecx) [] := by decide
theorem test_decode_add_rm32_r32_mem :
    decode [0x01, 0x1B] = .ok (.addRm32R32 (.mem (.base .ebx)) .ebx) [] := by decide
theorem test_decode_cmp_r32_rm32 :
    decode [0x3B, 0x8B, 0x00, 0x01, 0x00, 0x00] = .ok (.cmpR32Rm32 .ecx (.mem (.baseDisp32 .ebx 0x100))) [] := by decide
theorem test_decode_push_r32 : decode [0x55] = .ok (.pushR32 .ebp) [] := by decide
theorem test_decode_pop_r32 : decode [0x5F] = .ok (.popR32 .edi) [] := by decide
theorem test_decode_jo : decode [0x70, 0x10] = .ok (.joRel8 0x10) [] := by decide
theorem test_decode_jno : decode [0x71, 0x10] = .ok (.jnoRel8 0x10) [] := by decide
theorem test_decode_jc : decode [0x72, 0x10] = .ok (.jcRel8 0x10) [] := by decide
theorem test_decode_jnc : decode [0x73, 0x10] = .ok (.jncRel8 0x10) [] := by decide
theorem test_decode_jz : decode [0x74, 0x10] = .ok (.jzRel8 0x10) [] := by decide
theorem test_decode_jnz : decode [0x75, 0x10] = .ok (.jnzRel8 0x10) [] := by decide
theorem test_decode_jbe : decode [0x76, 0x10] = .ok (.jbeRel8 0x10) [] := by decide
theorem test_decode_ja : decode [0x77, 0x10] = .ok (.jaRel8 0x10) [] := by decide
theorem test_decode_js : decode [0x78, 0x10] = .ok (.jsRel8 0x10) [] := by decide
theorem test_decode_jns : decode [0x79, 0x10] = .ok (.jnsRel8 0x10) [] := by decide
theorem test_decode_jl : decode [0x7C, 0x10] = .ok (.jlRel8 0x10) [] := by decide
theorem test_decode_jge : decode [0x7D, 0x10] = .ok (.jgeRel8 0x10) [] := by decide
theorem test_decode_jle : decode [0x7E, 0x10] = .ok (.jleRel8 0x10) [] := by decide
theorem test_decode_jg : decode [0x7F, 0x10] = .ok (.jgRel8 0x10) [] := by decide
theorem test_decode_add_rm32_imm8 :
    decode [0x83, 0xC0, 0xFF] = .ok (.addRm32Imm8 (.reg .eax) 0xFF) [] := by decide
theorem test_decode_sub_rm32_imm8 :
    decode [0x83, 0x6D, 0xFC, 0x01] = .ok (.subRm32Imm8 (.mem (.baseDisp8 .ebp 0xFC)) 1) [] := by decide
theorem test_decode_cmp_rm32_imm8 :
    decode [0x83, 0x3D, 0x00, 0x80, 0x00, 0x00, 0x7F] = .ok (.cmpRm32Imm8 (.mem (.disp 0x8000)) 0x7F) [] := by decide
theorem test_decode_mov_rm8_r8 :
    decode [0x88, 0x6B, 0x01] = .ok (.movRm8R8 (.mem (.baseDisp8 .ebx 1)) .ch) [] := by decide
theorem test_decode_mov_rm8_r8_reg :
    decode [0x88, 0xE0] = .ok (.movRm8R8 (.reg .al) .ah) [] := by decide
theorem test_decode_mov_rm32_r32 :
    decode [0x89, 0xE5] = .ok (.movRm32R32 (.reg .ebp) .esp) [] := by decide
theorem test_decode_mov_r8_rm8 :
    decode [0x8A, 0x2D, 0x03, 0x80, 0x00, 0x00] = .ok (.movR8Rm8 .ch (.mem (.disp 0x8003))) [] := by decide
theorem test_decode_mov_r32_rm32 :
    decode [0x8B, 0x15, 0x00, 0x80, 0x00, 0x00] = .ok (.movR32Rm32 .edx (.mem (.disp 0x8000))) [] := by decide
theorem test_decode_mov_r32_rm32_sib :
    decode [0x8B, 0x44, 0x24, 0x08] = .ok (.movR32Rm32 .eax (.mem (.sibDisp8 0x24 8))) [] := by decide
theorem test_decode_mov_r8_imm8 : decode [0xB7, 0xEE] = .ok (.movR8Imm8 .bh 0xEE) [] := by decide
theorem test_decode_mov_r32_imm32 :
    decode [0xBC, 0x00, 0x90, 0x00, 0x00] = .ok (.movR32Imm32 .esp 0x9000) [] := by decide
theorem test_decode_ret : decode [0xC3] = .ok (.ret) [] := by decide
theorem test_decode_leave : decode [0xC9] = .ok (.leave) [] := by decide
theorem test_decode_call_rel32 :
    decode [0xE8, 0x05, 0x00, 0x00, 0x00] = .ok (.callRel32 5) [] := by decide
theorem test_decode_jmp_rel32 :
    decode [0xE9, 0xEA, 0x83, 0xFF, 0xFF] = .ok (.jmpRel32 0xFFFF83EA) [] := by decide
theorem test_decode_jmp_rel8 : decode [0xEB, 0x05] = .ok (.jmpRel8 5) [] := by decide
theorem test_decode_in_al_dx : decode [0xEC] = .ok (.inAlDx) [] := by decide
theorem test_decode_out_dx_al : decode [0xEE] = .ok (.outDxAl) [] := by decide
theorem test_decode_inc_rm32 :
    decode [0xFF, 0x03] = .ok (.incRm32 (.mem (.base .ebx))) [] := by decide
theorem test_decode_dec_rm32 : decode [0xFF, 0xC8] = .ok (.decRm32 (.reg .eax)) [] := by decide
theorem test_decode_rest : decode [0xC3, 0xEB, 0x05] = .ok (.ret) [0xEB, 0x05] := by decide

/-- B12.1 to B12.6, B7.19 to B7.21, B12.12, B12.15: encodings outside the map, a group selector
before the immediate. -/
theorem test_decode_unsupported :
    decode [0x90] = .unsupported 0x90 none ∧ decode [0x00] = .unsupported 0x00 none ∧
      decode [0x7A, 0x10] = .unsupported 0x7A none ∧ decode [0x0F, 0x84] = .unsupported 0x0F none ∧
      decode [0x66, 0xB8] = .unsupported 0x66 none ∧ decode [0x40] = .unsupported 0x40 none ∧
      decode [0x83, 0xC8] = .unsupported 0x83 (some 1) ∧ decode [0xFF, 0x30] = .unsupported 0xFF (some 6) ∧
      decode [0xFF, 0xD0] = .unsupported 0xFF (some 2) ∧
      decode [0x83, 0x0C, 0x24] = .unsupported 0x83 (some 1) := by decide

theorem test_decode_truncated :
    decode [] = .truncated ∧ decode [0x83, 0xC0] = .truncated ∧ decode [0x8B, 0x04] = .truncated ∧
      decode [0xE9, 0, 0, 0] = .truncated := by decide

/-- R91: 61 first bytes select an instruction. -/
theorem test_opcode_map_size :
    ((List.range 256).filter fun b => (dispatch (BitVec.ofNat 8 b)).isSome).length = 61 := by
  decide

/-- R104: a one-byte row is numbered first byte low; a two-byte row is `byte0 * 256 + byte1`. -/
theorem test_table_words :
    decodeTableWord 8 0x01 = some (.addRm32R32 (.mem (.base .eax)) .eax) ∧
      decodeTableWord 8 0xE8 = some (.callRel32 0) ∧
      decodeTableWord 16 0x8328 = some (.subRm32Imm8 (.mem (.base .eax)) 0) ∧
      decodeTableWord 16 0xFF08 = some (.decRm32 (.mem (.base .eax))) ∧
      decodeTableWord 8 0x00 = none := by decide

/-- A placed word is the first instruction the next step runs. -/
theorem test_fetch_word :
    nextIs (step (State.reset.withFetchWord 16 0xFF00)) (fun t => t.mem.byte 0 == 1 && t.pc == 0x7C02) = true ∧
      nextIs (step (State.reset.withFetchWord 8 0xEB)) (fun t => t.pc == 0x7C02) = true := by
  decide

/-! ### One step each (B4 to B11) -/

/-- B6.1 -/
theorem test_mov_r8_imm8 :
    nextIs (step (code (base.setReg .ebx 0x11223344) [0xB7, 0xEE])) (fun t => t.reg .ebx == 0x1122EE44 && t.pc == 0x102) = true := by decide
/-- B6.3 -/
theorem test_mov_r32_imm32 :
    nextIs (step (code base [0xBC, 0x00, 0x90, 0x00, 0x00])) (fun t => t.reg .esp == 0x9000 && t.pc == 0x105) = true := by decide
/-- B6.4 -/
theorem test_mov_rm8_r8_reg :
    nextIs (step (code (base.setReg .eax 0x1234AB78) [0x88, 0xE0])) (fun t => t.reg .eax == 0x1234ABAB && t.pc == 0x102) = true := by decide
/-- B6.5 -/
theorem test_mov_rm8_r8_mem :
    nextIs (step (code ((base.setReg .ebx 0x8000).setReg .ecx 0x0000AB00) [0x88, 0x6B, 0x01])) (fun t => bytesAt t 0x8000 3 == [0x00, 0xAB, 0x00] && t.pc == 0x103) = true := by decide
/-- B6.6 -/
theorem test_mov_rm32_r32_mem :
    nextIs (step (code (base.setReg .eax 0x8000) [0x89, 0x00])) (fun t => bytesAt t 0x8000 4 == [0x00, 0x80, 0x00, 0x00] && t.pc == 0x102) = true := by decide
/-- B6.8 -/
theorem test_mov_rm32_r32_reg :
    nextIs (step (code (base.setReg .esp 0x7BF8) [0x89, 0xE5])) (fun t => t.reg .ebp == 0x7BF8 && t.pc == 0x102) = true := by decide
/-- B6.12 -/
theorem test_mov_r8_rm8 :
    nextIs (step (code (put (base.setReg .ecx 0x11111111) 0x8003 [0x99]) [0x8A, 0x2D, 0x03, 0x80, 0x00, 0x00])) (fun t => t.reg .ecx == 0x11119911 && t.pc == 0x106) = true := by decide
/-- B6.13 -/
theorem test_mov_r8_rm8_last_byte :
    nextIs (step (code (put (base.setReg .ebx 0xFFFF) 0xFFFF [0x5A]) [0x8A, 0x03])) (fun t => t.reg .eax == 0x5A) = true := by decide
/-- B6.10 -/
theorem test_mov_r32_rm32_wrap :
    nextIs (step (code (put (base.setReg .eax 0xFFFFFFF0) 0x10 [0x0D, 0x0C, 0x0B, 0x0A]) [0x8B, 0x40, 0x20])) (fun t => t.reg .eax == 0x0A0B0C0D && t.pc == 0x103) = true := by decide
/-- A4 -/
theorem test_mov_r32_rm32_disp :
    nextIs (step (code (put (base.setReg .ebp 0xDEADBEEF) 0x8000 [0x78, 0xAB, 0x34, 0x12]) [0x8B, 0x15, 0x00, 0x80, 0x00, 0x00])) (fun t => t.reg .edx == 0x1234AB78 && t.pc == 0x106) = true := by decide
/-- B7.2 -/
theorem test_add_rm32_r32_wrap :
    nextIs (step (code ((base.setReg .eax 0x80000001).setFlags 0x8C1) [0x01, 0xC0])) (fun t => t.reg .eax == 2 && t.flags == 0x8C1 && t.pc == 0x102) = true := by decide
/-- B7.3 -/
theorem test_add_rm32_r32_mem :
    nextIs (step (code (put (base.setReg .ebx 0x8000) 0x8000 [0x01, 0x00, 0x00, 0x00]) [0x01, 0x1B])) (fun t => bytesAt t 0x8000 4 == [0x01, 0x80, 0x00, 0x00]) = true := by decide
/-- B7.4 -/
theorem test_add_rm32_imm8 :
    nextIs (step (code (base.setFlags 0x40) [0x83, 0xC0, 0xFF])) (fun t => t.reg .eax == 0xFFFFFFFF && t.flags == 0x40 && t.pc == 0x103) = true := by decide
/-- B7.6 -/
theorem test_sub_rm32_imm8_reg :
    nextIs (step (code (base.setReg .eax 5) [0x83, 0xE8, 0xFF])) (fun t => t.reg .eax == 6 && t.flags == 1 && t.pc == 0x103) = true := by decide
/-- B7.8 -/
theorem test_sub_rm32_imm8_mem :
    nextIs (step (code (put (base.setReg .ebp 0x8004) 0x8000 [0x00, 0x00, 0x00, 0x80]) [0x83, 0x6D, 0xFC, 0x01])) (fun t => bytesAt t 0x8000 4 == [0xFF, 0xFF, 0xFF, 0x7F] && t.flags == 0x800 && t.pc == 0x104) = true := by decide
/-- B7.11 -/
theorem test_cmp_rm32_imm8_reg :
    nextIs (step (code (base.setReg .eax 0xFFFFFF80) [0x83, 0xF8, 0x80])) (fun t => t.flags == 0x40 && t.reg .eax == 0xFFFFFF80) = true := by decide
/-- B7.12 -/
theorem test_cmp_rm32_imm8_mem :
    nextIs (step (code (put (base.setFlags 0x8C1) 0x8000 [0x80, 0x00, 0x00, 0x00]) [0x83, 0x3D, 0x00, 0x80, 0x00, 0x00, 0x7F])) (fun t => t.flags == 0 && t.pc == 0x107 && bytesAt t 0x8000 4 == [0x80, 0x00, 0x00, 0x00]) = true := by decide
/-- B7.13 -/
theorem test_cmp_r32_rm32 :
    nextIs (step (code (put ((base.setReg .ecx 3).setReg .ebx 0x8000) 0x8100 [0x05, 0x00, 0x00, 0x00]) [0x3B, 0x8B, 0x00, 0x01, 0x00, 0x00])) (fun t => t.flags == 0x81 && t.pc == 0x106) = true := by decide
/-- B7.15 -/
theorem test_inc_rm32_reg :
    nextIs (step (code ((base.setReg .eax 0xFFFFFFFF).setFlags 1) [0xFF, 0xC0])) (fun t => t.reg .eax == 0 && t.flags == 1 && t.pc == 0x102) = true := by decide
/-- B7.16 -/
theorem test_inc_rm32_mem :
    nextIs (step (code (put (base.setReg .ebx 0x8000) 0x8000 [0x78, 0xAB, 0x34, 0x12]) [0xFF, 0x03])) (fun t => bytesAt t 0x8000 4 == [0x79, 0xAB, 0x34, 0x12]) = true := by decide
/-- B7.17 -/
theorem test_dec_rm32_reg :
    nextIs (step (code base [0xFF, 0xC8])) (fun t => t.reg .eax == 0xFFFFFFFF && t.flags == 0) = true := by decide
/-- B7.18 -/
theorem test_dec_rm32_mem :
    nextIs (step (code (base.setReg .eax 0x8000) [0xFF, 0x08])) (fun t => bytesAt t 0x8000 4 == [0xFF, 0xFF, 0xFF, 0xFF] && t.flags == 0) = true := by decide
/-- B9.3 -/
theorem test_jmp_rel8 :
    nextIs (step (code base [0xEB, 0x80])) (fun t => t.pc == 0x82 && t.runState == .running) = true := by decide
/-- B9.5 -/
theorem test_jmp_rel32_stops :
    nextIs (step (code base [0xE9, 0xFB, 0xFE, 0xFF, 0xFF])) (fun t => t.pc == 0 && t.runState == .stopped) = true := by decide
/-- B9.6 -/
theorem test_call_rel32 :
    nextIs (step (code base [0xE8, 0xFB, 0xFF, 0xFF, 0xFF])) (fun t => t.reg .esp == 0x8FFC && t.pc == 0x100 && bytesAt t 0x8FFC 4 == [0x05, 0x01, 0x00, 0x00]) = true := by decide
/-- B9.8 -/
theorem test_ret :
    nextIs (step (code (put (base.setReg .esp 0x8FFC) 0x8FFC [0x05, 0x01, 0x00, 0x00]) [0xC3])) (fun t => t.pc == 0x105 && t.reg .esp == 0x9000) = true := by decide
/-- B9.9 -/
theorem test_ret_stops :
    nextIs (step (code base [0xC3])) (fun t => t.pc == 0 && t.reg .esp == 0x9004 && t.runState == .stopped) = true := by decide
/-- B10.3 -/
theorem test_push_esp :
    nextIs (step (code base [0x54])) (fun t => t.reg .esp == 0x8FFC && t.pc == 0x101 && bytesAt t 0x8FFC 4 == [0x00, 0x90, 0x00, 0x00]) = true := by decide
/-- B10.2 -/
theorem test_pop_r32 :
    nextIs (step (code (put (base.setReg .esp 0x7BF8) 0x7BF8 [0x2A, 0x00, 0x00, 0x00]) [0x58])) (fun t => t.reg .eax == 0x2A && t.reg .esp == 0x7BFC) = true := by decide
/-- B10.4 -/
theorem test_pop_esp :
    nextIs (step (code (put base 0x9000 [0x44, 0x33, 0x22, 0x11]) [0x5C])) (fun t => t.reg .esp == 0x11223344) = true := by decide
/-- B10.8 -/
theorem test_leave :
    nextIs (step (code (put ((base.setReg .ebp 0x8FF8).setReg .esp 0x8F00) 0x8FF8 [0x78, 0x56, 0x34, 0x12]) [0xC9])) (fun t => t.reg .esp == 0x8FFC && t.reg .ebp == 0x12345678 && t.pc == 0x101) = true := by decide
/-- B11.1 -/
theorem test_in_al_dx :
    nextIs (step (code (((base.setReg .edx 0xFFFF03F8).setReg .eax 0x12345678).setInput [0x41, 0x42]) [0xEC])) (fun t => t.reg .eax == 0x12345641 && t.input == [0x42] && t.pc == 0x101) = true := by decide
/-- B11.2 -/
theorem test_in_al_dx_absent :
    nextIs (step (code ((base.setReg .edx 0x60).setReg .eax 0x12345678) [0xEC])) (fun t => t.reg .eax == 0x12345600) = true := by decide
/-- B11.3 -/
theorem test_out_dx_al :
    nextIs (step (code ((base.setReg .edx 0x3F8).setReg .eax 0x1241) [0xEE])) (fun t => t.output == [0x41] && t.pc == 0x101) = true := by decide
/-- B11.4 -/
theorem test_out_dx_al_absent :
    nextIs (step (code ((base.setReg .edx 0x3F9).setReg .eax 0x1241) [0xEE])) (fun t => t.output == [] && t.pc == 0x101) = true := by decide
/-- B11.5 -/
theorem test_in_blocks : blocked (step (code (base.setReg .edx 0x3F8) [0xEC])) = true := by
  decide

/-- The fourteen conditional jumps in opcode order. -/
def jcc (rel : Byte) : List Instr :=
  [.joRel8 rel, .jnoRel8 rel, .jcRel8 rel, .jncRel8 rel, .jzRel8 rel, .jnzRel8 rel, .jbeRel8 rel,
    .jaRel8 rel, .jsRel8 rel, .jnsRel8 rel, .jlRel8 rel, .jgeRel8 rel, .jleRel8 rel, .jgRel8 rel]

/-- Which of them are taken with a flags word. -/
def takenRow (f : Word) : List Bool :=
  (jcc 0x10).map fun i => nextIs (exec i ((base.setFlags f).setPc 0x102)) fun t => t.pc == 0x112

/-- B8, the rows with CF clear; T is taken, F not. -/
theorem test_jcc_cf_clear :
    let T := true
    let F := false
    takenRow 0x00000000 = [F, T, F, T, F, T, F, T, F, T, F, T, F, T] ∧
    takenRow 0x00000800 = [T, F, F, T, F, T, F, T, F, T, T, F, T, F] ∧
    takenRow 0x00000080 = [F, T, F, T, F, T, F, T, T, F, T, F, T, F] ∧
    takenRow 0x00000880 = [T, F, F, T, F, T, F, T, T, F, F, T, F, T] ∧
    takenRow 0x00000040 = [F, T, F, T, T, F, T, F, F, T, F, T, T, F] ∧
    takenRow 0x00000840 = [T, F, F, T, T, F, T, F, F, T, T, F, T, F] ∧
    takenRow 0x000000C0 = [F, T, F, T, T, F, T, F, T, F, T, F, T, F] ∧
    takenRow 0x000008C0 = [T, F, F, T, T, F, T, F, T, F, F, T, T, F] := by decide
/-- B8, the rows with CF set; T is taken, F not. -/
theorem test_jcc_cf_set :
    let T := true
    let F := false
    takenRow 0x00000001 = [F, T, T, F, F, T, T, F, F, T, F, T, F, T] ∧
    takenRow 0x00000801 = [T, F, T, F, F, T, T, F, F, T, T, F, T, F] ∧
    takenRow 0x00000081 = [F, T, T, F, F, T, T, F, T, F, T, F, T, F] ∧
    takenRow 0x00000881 = [T, F, T, F, F, T, T, F, T, F, F, T, F, T] ∧
    takenRow 0x00000041 = [F, T, T, F, T, F, T, F, F, T, F, T, T, F] ∧
    takenRow 0x00000841 = [T, F, T, F, T, F, T, F, F, T, T, F, T, F] ∧
    takenRow 0x000000C1 = [F, T, T, F, T, F, T, F, T, F, T, F, T, F] ∧
    takenRow 0x000008C1 = [T, F, T, F, T, F, T, F, T, F, F, T, T, F] := by decide

/-- B8: inert bits do not matter; the target wraps below 0. -/
theorem test_jcc_inert_and_wrap :
    takenRow 0xFFFFF73E = takenRow 0 ∧
      nextIs (exec (.jnoRel8 0x80) (base.setPc 0x12)) (fun t => t.pc == 0xFFFFFF92) = true := by
  decide

/-! ### Flags, primitives (B3 to B5) -/

/-- B5 -/
theorem test_sub_flags :
    subFlags 5 3 0 = 0 ∧ subFlags 3 5 0 = 0x81 ∧ subFlags 0x80000000 1 0 = 0x800 ∧
      subFlags 0x7FFFFFFF 0xFFFFFFFF 0 = 0x881 ∧ subFlags 1 0xFFFFFFFF 0 = 1 ∧
      subFlags 0x7FFFFFFF 0x80000000 0 = 0x881 ∧ subFlags 0 0 0xFFFFFFFF = 0xFFFFF77E := by
  decide

/-- B4 -/
theorem test_memory_primitives :
    (∃ m, (base.mem.setByte 0x8000 0x11).write32 0x8001 0xAABBCCDD = .ok m ∧
      m.read32 0x8000 = .ok 0xBBCCDD11 ∧ m.read8 0x8003 = .ok 0xBB ∧ m.read32 0x8002 = .ok 0x00AABBCC) ∧
    base.mem.read32 0xFFFC = .ok 0 ∧ base.mem.read32 0xFFFD = .error (.outOfBounds 0x10000) ∧
    base.mem.read8 0x10000 = .error (.outOfBounds 0x10000) ∧
    base.mem.read32 0xFFFFFFFE = .error (.outOfBounds 0xFFFFFFFE) ∧
    Memory.read32 { size := 2 ^ 32, cells := [] } 0xFFFFFFFE = .error (.outOfBounds 0x100000000) :=
  ⟨⟨_, rfl, rfl, rfl, rfl⟩, rfl, rfl, rfl, rfl, rfl⟩

/-- B3 -/
theorem test_byte_views :
    let s := (base.setReg .eax 0x12345678).setReg .ebx 0x11223344
    s.reg8 .al = 0x78 ∧ s.reg8 .ah = 0x56 ∧ s.reg8 .bl = 0x44 ∧ s.reg8 .bh = 0x33 ∧
      (s.setReg8 .bh 0xEE).reg .ebx = 0x1122EE44 ∧ (s.setReg8 .al 0).reg .eax = 0x12345600 ∧
      (s.setReg8 .ah 0xFF).reg .eax = 0x1234FF78 ∧ (s.setReg8 .ah 0xFF).reg .esp = 0x9000 := by
  decide

/-! ### Fatal conditions and their order (B6.14, B9.10, B10, B12) -/

/-- B6.14 -/
theorem test_fatal_load :
    fatalIs (code (base.setReg .ebx 0xFFFE) [0x8B, 0x03]) (.outOfBounds 0x10000) = true := by decide
/-- B10.5 -/
theorem test_fatal_push_wrap :
    fatalIs (code (base.setReg .esp 2) [0x50]) (.outOfBounds 0xFFFFFFFE) = true := by decide
/-- B10.6 -/
theorem test_fatal_push_straddle :
    fatalIs (code (base.setReg .esp 0x10002) [0x50]) (.outOfBounds 0x10000) = true := by decide
/-- B12.7 -/
theorem test_fatal_sib_mode0 :
    fatalIs (code base [0x8B, 0x04, 0x24]) (.unsupportedAddressing 0 4) = true := by decide
/-- B12.9 -/
theorem test_fatal_sib_mode2 :
    fatalIs (code base [0x8B, 0x84, 0x24, 0x00, 0x01, 0x00, 0x00]) (.unsupportedAddressing 2 4) = true := by decide
/-- B12.10 -/
theorem test_fatal_fetch32 :
    fatalIs (code (base.setPc 0xFFFD) [0xB8]) (.outOfBounds 0x10000) = true := by decide
/-- B12.11 -/
theorem test_fatal_fetch_opcode :
    fatalIs (base.setPc 0x10000) (.outOfBounds 0x10000) = true := by decide
/-- B12.12 -/
theorem test_fatal_selector_before_imm :
    fatalIs (code (base.setPc 0xFFFE) [0x83, 0xC8]) (.unsupportedOpcode 0x83 (some 1)) = true := by decide
/-- B12.13 -/
theorem test_fatal_imm_missing :
    fatalIs (code (base.setPc 0xFFFE) [0x83, 0xC0]) (.outOfBounds 0x10000) = true := by decide
/-- B12.14 -/
theorem test_fatal_sib_byte_missing :
    fatalIs (code (base.setPc 0xFFFE) [0x8B, 0x04]) (.outOfBounds 0x10000) = true := by decide
/-- B12.15 -/
theorem test_fatal_selector_before_sib :
    fatalIs (code base [0x83, 0x0C, 0x24, 0x01]) (.unsupportedOpcode 0x83 (some 1)) = true := by decide
/-- B12.16 -/
theorem test_fatal_longest_fetch :
    fatalIs (code (base.setPc 0xFFF8) [0x83, 0x84, 0x24, 0x00, 0x01, 0x00, 0x00, 0x05]) (.unsupportedAddressing 2 4) = true := by decide
/-- B12.17 -/
theorem test_fatal_imm_before_sib :
    fatalIs (code (base.setPc 0xFFF9) [0x83, 0x84, 0x24, 0x00, 0x01, 0x00, 0x00]) (.outOfBounds 0x10000) = true := by decide

/-- R318 -/
theorem test_ended_stays :
    step (base.setRunState .stopped) = .next (base.setRunState .stopped) := rfl

/-- U12, U13 -/
theorem test_boot_refuses :
    State.boot ⟨0, 1, 0, 0, [], []⟩ = .error .memSizeOutOfRange ∧
      State.boot ⟨2 ^ 32 + 1, 1, 0, 0, [], []⟩ = .error .memSizeOutOfRange ∧
      State.boot ⟨16, 0, 0, 0, [], []⟩ = .error .initPcZero ∧
      State.boot ⟨2, 1, 0, 1, [1, 2], []⟩ = .error .imageDoesNotFit ∧
      (∃ s, State.boot ⟨2, 1, 0, 0, [1, 2], []⟩ = .ok s) ∧
      ∃ s, State.boot ⟨2 ^ 32, 1, 0, 0, [], []⟩ = .ok s :=
  ⟨rfl, rfl, rfl, rfl, ⟨_, rfl⟩, ⟨_, rfl⟩⟩

/-- R290: the dump lists the registers in index order. -/
theorem test_dump : base.dump = ⟨0x100, [0, 0, 0, 0, 0x9000, 0, 0, 0], 0⟩ := rfl

/-! ### Witnesses: encoding and decoding -/

theorem witness_DecodeEncodeRoundTrip :
    (Instr.movR32Rm32 .eax (.mem (.baseDisp8 .ebp 0xFC))).wellFormed = true := by decide

theorem witness_EncodeDecodeRoundTrip :
    decode [0xEB, 0x05, 0xC3] = .ok (.jmpRel8 5) [0xC3] := by decide

theorem witness_CompletingInstructionLength :
    ∃ t, exec (.cmpRm32Imm8 (.mem (.disp 0x8000)) 0x7F) base = .next t ∧
      (encode (.cmpRm32Imm8 (.mem (.disp 0x8000)) 0x7F)).length = 7 := ⟨_, rfl, by decide⟩

/-! ### Witnesses: the step -/

/-- The hypotheses of StepRunsDecodedInstruction at `s`, as its own words. -/
def stepHyps (s : State) (bs rest : List Byte) (i : Instr) : Prop :=
  s.runState = .running ∧ s.mem.size ≤ 2 ^ 32 ∧ s.mem.holds s.pc.toNat bs ∧ decode bs = .ok i rest

theorem witness_StepRunsDecodedInstruction_next :
    stepHyps (code base [0x01, 0xC8]) [0x01, 0xC8] [] (.addRm32R32 (.reg .eax) .ecx) ∧
      ∃ t, exec (.addRm32R32 (.reg .eax) .ecx) ((code base [0x01, 0xC8]).setPc 0x102) = .next t :=
  ⟨⟨rfl, by decide, by decide, by decide⟩, _, rfl⟩

theorem witness_StepRunsDecodedInstruction_fatal :
    stepHyps (code base [0x8B, 0x04, 0x24]) [0x8B, 0x04, 0x24] []
        (.movR32Rm32 .eax (.mem (.sib 0x24))) ∧
      exec (.movR32Rm32 .eax (.mem (.sib 0x24))) ((code base [0x8B, 0x04, 0x24]).setPc 0x103) =
        .fault (.fatal (.unsupportedAddressing 0 4)) :=
  ⟨⟨rfl, by decide, by decide, by decide⟩, rfl⟩

theorem witness_StepRunsDecodedInstruction_blocked :
    stepHyps (code (base.setReg .edx 0x3F8) [0xEC]) [0xEC] [] .inAlDx ∧
      exec .inAlDx ((code (base.setReg .edx 0x3F8) [0xEC]).setPc 0x101) = .fault .blockedOnInput :=
  ⟨⟨rfl, by decide, by decide, by decide⟩, rfl⟩

/-- The first and last byte of each range of R97. -/
theorem witness_UnsupportedFirstByteIsFatal :
    ∀ b ∈ ([0x00, 0x02, 0x3A, 0x3C, 0x4F, 0x60, 0x6F, 0x7A, 0x7B, 0x80, 0x82, 0x84, 0x87, 0x8C, 0xAF,
        0xC0, 0xC2, 0xC4, 0xC8, 0xCA, 0xE7, 0xEA, 0xED, 0xEF, 0xFE] : List Byte),
      let s := code base [b]
      s.runState = .running ∧ s.pc.toNat < s.mem.size ∧
      let op := (s.mem.byte s.pc.toNat).toNat
      (op = 0x00 ∨ (0x02 ≤ op ∧ op ≤ 0x3A) ∨ (0x3C ≤ op ∧ op ≤ 0x4F) ∨ (0x60 ≤ op ∧ op ≤ 0x6F) ∨
        op = 0x7A ∨ op = 0x7B ∨ (0x80 ≤ op ∧ op ≤ 0x82) ∨ (0x84 ≤ op ∧ op ≤ 0x87) ∨
        (0x8C ≤ op ∧ op ≤ 0xAF) ∨ (0xC0 ≤ op ∧ op ≤ 0xC2) ∨ (0xC4 ≤ op ∧ op ≤ 0xC8) ∨
        (0xCA ≤ op ∧ op ≤ 0xE7) ∨ op = 0xEA ∨ op = 0xED ∨ (0xEF ≤ op ∧ op ≤ 0xFE)) ∧
      fatalIs s (.unsupportedOpcode b none) = true := by decide

/-- Both clauses, at the last descriptor that fits in memory. -/
theorem witness_UnsupportedSelectorIsFatal :
    let s := (base.setPc 0xFFFE)
    let d : RM Reg32 := .reg .eax
    s.runState = .running ∧ s.mem.size ≤ 2 ^ 32 ∧ d.wellFormed = true ∧
      (∀ g ∈ ([1, 2, 3, 4, 6] : List (BitVec 3)), g ≠ 0 ∧ g ≠ 5 ∧ g ≠ 7 ∧
        (code s [0x83, 0xC0 + 8 * g.setWidth 8]).mem.holds s.pc.toNat (0x83 :: encodeRM Reg32.index g d)) ∧
      ∀ g ∈ ([2, 3, 4, 5, 6, 7] : List (BitVec 3)), g ≠ 0 ∧ g ≠ 1 ∧
        (code s [0xFF, 0xC0 + 8 * g.setWidth 8]).mem.holds s.pc.toNat (0xFF :: encodeRM Reg32.index g d) := by
  decide

theorem witness_OpcodeFetchOutsideMemoryIsFatal :
    (base.setPc 0x10000).runState = .running ∧
      (base.setPc 0x10000).mem.size ≤ (base.setPc 0x10000).pc.toNat := by decide

/-- A SIB form and a register form whose immediate lies past the end of memory. -/
theorem witness_MissingImmediateBeforeAddressing :
    let s := code (base.setPc 0xFFF9) [0x83, 0x84, 0x24, 0, 1, 0, 0]
    let d : RM Reg32 := .mem (.sibDisp32 0x24 0x100)
    s.runState = .running ∧ s.mem.size < 2 ^ 32 ∧ d.wellFormed = true ∧
      s.mem.holds s.pc.toNat (0x83 :: encodeRM Reg32.index 0 d) ∧
      s.pc.toNat + (0x83 :: encodeRM Reg32.index 0 d).length = s.mem.size ∧
      ∀ g ∈ ([0, 5, 7] : List (BitVec 3)),
        let u := code (base.setPc 0xFFFE) [0x83, 0xC0 + 8 * g.setWidth 8]
        u.mem.holds u.pc.toNat (0x83 :: encodeRM Reg32.index g (.reg .eax)) ∧
          u.pc.toNat + (0x83 :: encodeRM Reg32.index g (.reg .eax)).length = u.mem.size := by
  decide

theorem witness_OnlyPortReadBlocks :
    ∃ s f, step s = .fault f := ⟨code (base.setReg .edx 0x3F8) [0xEC], .blockedOnInput, rfl⟩

theorem witness_SentinelEndsRun_zero :
    ∃ t, (code base [0xC3]).runState = .running ∧ step (code base [0xC3]) = .next t ∧
      t.isFatal = false ∧ t.pc = 0 := ⟨_, rfl, rfl, rfl, rfl⟩

theorem witness_SentinelEndsRun_nonzero :
    ∃ t, (code base [0xEB, 0]).runState = .running ∧ step (code base [0xEB, 0]) = .next t ∧
      t.isFatal = false ∧ t.pc ≠ 0 := ⟨_, rfl, rfl, rfl, by decide⟩

theorem witness_EndedEngineDoesNothing :
    (base.setRunState .stopped).runState = .stopped ∧
      (base.setRunState (.fatal (.outOfBounds 0))).runState = .fatal (.outOfBounds 0) := ⟨rfl, rfl⟩

theorem witness_OnlyPortAccessMovesStreams :
    (∃ t, step (code (base.setReg .edx 0x3F8) [0xEE]) = .next t ∧ t.output = [0]) ∧
      ∃ t, step ((code (base.setReg .edx 0x3F8) [0xEC]).setInput [7]) = .next t ∧ t.input = [] :=
  ⟨⟨_, rfl, rfl⟩, _, rfl, rfl⟩

/-! ### Witnesses: invariants and reset -/

/-- A running state meets the invariant. -/
theorem witness_inv : (code base [0xEB, 0]).Inv where
  mem_wf := by decide
  size_pos := by decide
  size_le := by decide
  running_pc := fun _ => by decide
  stopped_pc := fun h => by cases h
  inert := fun _ k _ => by
    show (0 : Word).getLsbD k = false
    exact BitVec.getLsbD_zero

/-- The invariant can fail, so it says something. -/
theorem test_inv_fails : ¬ ((base.setPc 0).Inv) := fun h => h.running_pc rfl rfl

theorem witness_StepKeepsInvariant :
    (code base [0xEB, 0]).Inv ∧ ∃ t, step (code base [0xEB, 0]) = .next t := ⟨witness_inv, _, rfl⟩

theorem witness_StepKeepsMemorySize : ∃ t, step (code base [0xEB, 0]) = .next t := ⟨_, rfl⟩

/-- The image of two bytes at the last place where it fits. -/
def bootParams : BootParams := ⟨0x100, 0x10, 0x20, 0xFE, [1, 2], [7]⟩

theorem witness_BootMeetsInvariant : ∃ s, State.boot bootParams = .ok s := ⟨_, rfl⟩

theorem witness_BootMemoryIsImage :
    ∃ s, State.boot bootParams = .ok s ∧ 0 < bootParams.image.length ∧ 1 < bootParams.image.length ∧
      0xFD < bootParams.loadAddr ∧ bootParams.loadAddr + bootParams.image.length ≤ 0x100 ∧
      bytesAt s 0xFD 4 = [0, 1, 2, 0] := ⟨_, rfl, by decide⟩

theorem witness_BootPcSpRunState : ∃ s, State.boot bootParams = .ok s := ⟨_, rfl⟩

theorem witness_BootOtherRegistersZero :
    (∃ s, State.boot bootParams = .ok s) ∧ Reg32.edi ≠ .esp := ⟨⟨_, rfl⟩, by decide⟩

/-! ### Witnesses: primitives and flags -/

/-- The smallest outside byte of an access that straddles or lies past the end of memory. -/
theorem witness_first_outside :
    isFirstOutside base.mem 0xFFFD 4 0x10000 ∧ isFirstOutside base.mem 0x10000 1 0x10000 ∧
      isFirstOutside base.mem 0xFFFFFFFE 4 0xFFFFFFFE := by
  have hs : base.mem.size = 0x10000 := rfl
  refine ⟨⟨by omega, by omega, by omega, fun x _ _ => by omega⟩,
    ⟨by omega, by omega, by omega, fun x _ _ => by omega⟩,
    ⟨by omega, by omega, by omega, fun x _ _ => by omega⟩⟩

theorem witness_MemReadPrimitive :
    (0xFFFF : Word).toNat + 1 ≤ base.mem.size ∧
      isFirstOutside base.mem (0x10000 : Word).toNat 1 0x10000 ∧
      (0xFFFC : Word).toNat + 4 ≤ base.mem.size ∧
      isFirstOutside base.mem (0xFFFD : Word).toNat 4 0x10000 :=
  ⟨by decide, witness_first_outside.2.1, by decide, witness_first_outside.1⟩

theorem witness_MemWritePrimitive :
    base.mem.wf ∧ (0xFFFF : Word).toNat + 1 ≤ base.mem.size ∧
      isFirstOutside base.mem (0x10000 : Word).toNat 1 0x10000 ∧
      (0xFFFC : Word).toNat + 4 ≤ base.mem.size ∧
      isFirstOutside base.mem (0xFFFD : Word).toNat 4 0x10000 :=
  ⟨by decide, by decide, witness_first_outside.2.1, by decide, witness_first_outside.1⟩

theorem witness_MixedWidthAccess :
    base.mem.wf ∧ base.mem.size ≤ 2 ^ 32 ∧ 3 < 4 ∧ (0xFFFC : Word).toNat + 4 ≤ base.mem.size ∧
      (∃ n, base.mem.write8 (0xFFFC + BitVec.ofNat 32 3) 0xAB = .ok n) ∧
      ∃ n, base.mem.write32 0xFFFC 0xAABBCCDD = .ok n :=
  ⟨by decide, by decide, by decide, by decide, ⟨_, rfl⟩, _, rfl⟩

theorem witness_ByteRegisterWriteTouchesOneByte :
    (Reg32.ebx, Reg8.bl, Reg8.bh) ∈
      [(Reg32.eax, Reg8.al, Reg8.ah), (.ecx, .cl, .ch), (.edx, .dl, .dh), (.ebx, .bl, .bh)] ∧
      Reg32.esp ≠ .ebx ∧ 16 ≤ 31 := by decide

theorem witness_FlagWriteIsBitLevel : 31 < 32 ∧ 12 ≠ 0 ∧ 12 ≠ 6 ∧ 12 ≠ 7 ∧ 12 ≠ 11 := by decide

theorem witness_OnlySubtractionsWriteFlags :
    (∃ t, exec (.incRm32 (.reg .eax)) base = .next t ∧ isFlagWriter (.incRm32 (.reg .eax)) = false) ∧
      (∃ t, exec (.cmpR32Rm32 .eax (.reg .ebx)) base = .next t) ∧
      (∃ t, exec (.subRm32Imm8 (.reg .eax) 1) base = .next t) ∧
      ∃ t, exec (.cmpRm32Imm8 (.reg .eax) 1) base = .next t :=
  ⟨⟨_, rfl, rfl⟩, ⟨_, rfl⟩, ⟨_, rfl⟩, _, rfl⟩

theorem witness_InertFlagBitsNeverRead :
    sameFlagBits base.flags 0xFFFFF73E ∧ ∃ t, exec (.jgRel8 5) base = .next t := by
  refine ⟨fun k hk => ?_, _, rfl⟩
  simp [isFlagBit] at hk
  rcases hk with ((rfl | rfl) | rfl) | rfl <;> rfl

theorem witness_OnlyConditionalJumpsReadFlags :
    isConditionalJump (.cmpR32Rm32 .eax (.reg .ebx)) = false ∧
      ∃ t, exec (.cmpR32Rm32 .eax (.reg .ebx)) base = .next t := ⟨rfl, _, rfl⟩

/-! ### Witnesses: instructions -/

/-- A 32-bit operand in the last four bytes of memory. -/
def lastWord : MemRef := .disp 0xFFFC

/-- An 8-bit operand in the last byte of memory. -/
def lastByte : MemRef := .disp 0xFFFF

theorem witness_MovRm8R8Completes :
    base.mem.wf ∧ base.effectiveAddress lastByte = .ok 0xFFFF ∧
      (0xFFFF : Word).toNat + 1 ≤ base.mem.size := ⟨by decide, rfl, by decide⟩

theorem witness_MovR8Rm8Completes :
    base.effectiveAddress lastByte = .ok 0xFFFF ∧ (0xFFFF : Word).toNat + 1 ≤ base.mem.size :=
  ⟨rfl, by decide⟩

theorem witness_MovRm32R32Completes :
    base.mem.wf ∧ base.effectiveAddress lastWord = .ok 0xFFFC ∧
      (0xFFFC : Word).toNat + 4 ≤ base.mem.size := ⟨by decide, rfl, by decide⟩

theorem witness_AddRm32R32Completes :
    base.mem.wf ∧ base.effectiveAddress lastWord = .ok 0xFFFC ∧
      (0xFFFC : Word).toNat + 4 ≤ base.mem.size := ⟨by decide, rfl, by decide⟩

theorem witness_AddRm32Imm8Completes :
    base.mem.wf ∧ base.effectiveAddress lastWord = .ok 0xFFFC ∧
      (0xFFFC : Word).toNat + 4 ≤ base.mem.size := ⟨by decide, rfl, by decide⟩

theorem witness_SubRm32Imm8Completes :
    base.mem.wf ∧ base.effectiveAddress lastWord = .ok 0xFFFC ∧
      (0xFFFC : Word).toNat + 4 ≤ base.mem.size := ⟨by decide, rfl, by decide⟩

theorem witness_IncDecRm32Complete :
    base.mem.wf ∧ base.effectiveAddress lastWord = .ok 0xFFFC ∧
      (0xFFFC : Word).toNat + 4 ≤ base.mem.size := ⟨by decide, rfl, by decide⟩

theorem witness_MovR32Rm32Completes :
    base.effectiveAddress lastWord = .ok 0xFFFC ∧ (0xFFFC : Word).toNat + 4 ≤ base.mem.size :=
  ⟨rfl, by decide⟩

theorem witness_CmpRm32Imm8Completes :
    base.effectiveAddress lastWord = .ok 0xFFFC ∧ (0xFFFC : Word).toNat + 4 ≤ base.mem.size :=
  ⟨rfl, by decide⟩

theorem witness_CmpR32Rm32Completes :
    base.effectiveAddress lastWord = .ok 0xFFFC ∧ (0xFFFC : Word).toNat + 4 ≤ base.mem.size :=
  ⟨rfl, by decide⟩

/-- The stack at the end of memory: the pushed doubleword is its last. -/
def fullStack : State := base.setReg .esp 0x10000

/-- ESP and EBP at the last doubleword of memory. -/
def lastFrame : State := (base.setReg .esp 0xFFFC).setReg .ebp 0xFFFC

theorem witness_CallRel32Completes :
    fullStack.mem.wf ∧ (fullStack.reg .esp - 4).toNat + 4 ≤ fullStack.mem.size := by decide

theorem witness_PushR32Completes :
    fullStack.mem.wf ∧ (fullStack.reg .esp - 4).toNat + 4 ≤ fullStack.mem.size := by decide

theorem witness_RetCompletes : (lastFrame.reg .esp).toNat + 4 ≤ lastFrame.mem.size := by decide

theorem witness_PopR32Completes :
    (lastFrame.reg .esp).toNat + 4 ≤ lastFrame.mem.size ∧ Reg32.eax ≠ .esp := by decide

theorem witness_LeaveCompletes : (lastFrame.reg .ebp).toNat + 4 ≤ lastFrame.mem.size := by decide

theorem witness_PushThenPopRestores :
    base.mem.wf ∧ (∃ t, base.push32 0xCAFEBABE = .ok t) ∧ 3 < 4 := ⟨by decide, ⟨_, rfl⟩, by decide⟩

theorem witness_FrameTeardownReturns :
    ∃ t1 t2 t3 t4, base.mem.wf ∧ exec (.callRel32 5) base = .next t1 ∧
      exec (.pushR32 .ebp) (t1.setPc 0x10B) = .next t2 ∧
      exec (.movRm32R32 (.reg .ebp) .esp) (t2.setPc 0x10D) = .next t3 ∧
      exec (.subRm32Imm8 (.reg .esp) 0x10) (t3.setPc 0x110) = .next t4 :=
  ⟨_, _, _, _, by decide, rfl, rfl, rfl, rfl⟩

theorem witness_InAlDxCompletes :
    (base.reg .edx).setWidth 16 ≠ (0x3F8 : BitVec 16) ∧
      ((base.setReg .edx 0xFFFF03F8).reg .edx).setWidth 16 = (0x3F8 : BitVec 16) ∧
      (base.setInput [1]).input = 1 :: [] ∧ base.input = [] := by decide

theorem witness_SibFormsAreUnsupported :
    let m : MemRef := .sibDisp32 0x24 0x100
    let i : Instr := .movR32Rm32 .eax (.mem m)
    let s := code (base.setPc 0xFFF9) (encode i)
    (m, (2 : BitVec 2)) ∈
      [(MemRef.sib 0x24, (0 : BitVec 2)), (.sibDisp8 0x24 8, 1), (.sibDisp32 0x24 0x100, 2)] ∧
      i ∈ rm32Instrs (.mem m) .eax 0 ++ rm8Instrs (.mem m) .al ∧ s.runState = .running ∧
      s.mem.size ≤ 2 ^ 32 ∧ s.mem.holds s.pc.toNat (encode i) := by decide

theorem witness_OperandOutsideMemoryIsFatal :
    base.effectiveAddress (.disp 0xFFFD) = .ok 0xFFFD ∧
      isFirstOutside base.mem (0xFFFD : Word).toNat 4 0x10000 ∧
      base.effectiveAddress (.disp 0x10000) = .ok 0x10000 ∧
      isFirstOutside base.mem (0x10000 : Word).toNat 1 0x10000 ∧
      Instr.incRm32 (.mem (.disp 0xFFFD)) ∈ rm32Instrs (.mem (.disp 0xFFFD)) .eax 0 ∧
      Instr.movR8Rm8 .al (.mem (.disp 0x10000)) ∈ rm8Instrs (.mem (.disp 0x10000)) .al :=
  ⟨rfl, witness_first_outside.1, rfl, witness_first_outside.2.1, by decide, by decide⟩

theorem witness_StackOutsideMemoryIsFatal :
    isFirstOutside base.mem ((base.setReg .esp 0x10001).reg .esp - 4).toNat 4 0x10000 ∧
      isFirstOutside base.mem ((base.setReg .esp 2).reg .esp - 4).toNat 4 0xFFFFFFFE ∧
      isFirstOutside base.mem ((base.setReg .esp 0xFFFD).reg .esp).toNat 4 0x10000 ∧
      isFirstOutside base.mem ((base.setReg .ebp 0xFFFD).reg .ebp).toNat 4 0x10000 :=
  ⟨witness_first_outside.1, witness_first_outside.2.2, witness_first_outside.1, witness_first_outside.1⟩

end Sys2Proof.Tests
end

section
/-! PROOFS of the statements about the state (10_state.md): reset, 8-bit register views, and the flags
word. -/

namespace Sys2Proof.Machine

/-! ### Reset (R40, R42) -/

/-- R42: loading an image leaves every byte outside its range as it was. -/
theorem Memory.byte_loadImage_outside {m : Memory} (hw : m.wf) (a : Nat) (bs : List Byte) {x : Nat}
    (hx : x < a ∨ a + bs.length ≤ x) : (m.loadImage a bs).byte x = m.byte x := by
  induction bs generalizing m a with
  | nil => rfl
  | cons b bs ih =>
    rw [List.length_cons] at hx
    have tail := ih (Memory.setByte_wf hw a b) (a + 1) (by omega)
    exact tail.trans (Memory.byte_setByte_ne hw a b (by omega))

/-- R42: `mem[LOAD_ADDR + k] = IMAGE[k]` once an image that fits is loaded. -/
theorem Memory.byte_loadImage_inside {m : Memory} (hw : m.wf) {a : Nat} {bs : List Byte}
    (hfit : a + bs.length ≤ m.size) {k : Nat} (hk : k < bs.length) :
    (m.loadImage a bs).byte (a + k) = bs[k] := by
  induction bs generalizing m a k with
  | nil => simp at hk
  | cons b bs ih =>
    rw [List.length_cons] at hfit hk
    have hw' := Memory.setByte_wf hw a b
    cases k with
    | zero =>
      have later := Memory.byte_loadImage_outside hw' (a + 1) bs (x := a) (by omega)
      exact later.trans (by rw [Memory.byte_setByte hw (by omega), if_pos rfl]; rfl)
    | succ k =>
      have tail := ih hw' (a := a + 1) (k := k) (by rw [Memory.setByte_size]; omega) (by omega)
      rwa [Nat.add_right_comm] at tail

/-- The memory of a created state is in canonical form: it lists nothing. -/
theorem State.create_mem_wf (n : Nat) (pc sp : Word) : (State.create n pc sp).mem.wf :=
  ⟨List.Pairwise.nil, fun _ hc => absurd hc List.not_mem_nil⟩

/-- R310 to R314: a reset that is not refused had legal parameters, and it is the created state with
the image loaded and the input stream attached. -/
theorem State.boot_ok {p : BootParams} {s : State} (h : State.boot p = .ok s) :
    (1 ≤ p.memSize ∧ p.memSize ≤ 2 ^ 32) ∧ p.initPc ≠ 0 ∧
      p.loadAddr + p.image.length ≤ p.memSize ∧
      s = ((State.create p.memSize p.initPc p.initSp).setMem
        ((State.create p.memSize p.initPc p.initSp).mem.loadImage p.loadAddr p.image)).setInput
          p.input := by
  unfold State.boot at h
  split_ifs at h with hsize hpc hfit
  exact ⟨by omega, hpc, by omega, (Except.ok.inj h).symm⟩

/-- Settles O18: the image is loaded over a memory that lists nothing. -/
theorem bootMemoryIsImage : Obligations.BootMemoryIsImage := by
  intro p s h
  obtain ⟨-, -, hfit, rfl⟩ := State.boot_ok h
  have hw := State.create_mem_wf p.memSize p.initPc p.initSp
  exact ⟨Memory.loadImage_size _ _ _, fun k hk => Memory.byte_loadImage_inside hw hfit hk,
    fun a ha => Memory.byte_loadImage_outside hw _ _ ha⟩

/-- Settles O19: neither loading the image nor attaching the input touches what creation set. -/
theorem bootPcSpRunState : Obligations.BootPcSpRunState := by
  intro p s h
  obtain ⟨-, -, -, rfl⟩ := State.boot_ok h
  exact ⟨rfl, rfl, rfl⟩

/-! ### 8-bit register writes (R24) -/

/-- R24: what a write of a view leaves in the parent. -/
theorem State.reg_parent_setReg8 (s : State) (r : Reg8) (v : Byte) :
    (s.setReg8 r v).reg (reg8Parent r) =
      withViewByte (reg8IsHigh r) (s.reg (reg8Parent r)) v := by
  rw [State.reg_setReg8, if_pos rfl]

/-- R24: a write of a view leaves every register but the parent. -/
theorem State.reg_setReg8_ne (s : State) (r : Reg8) (v : Byte) {q : Reg32} (h : q ≠ reg8Parent r) :
    (s.setReg8 r v).reg q = s.reg q := by
  rw [State.reg_setReg8, if_neg h]

/-- R24: bits 16 and up of every register survive the write of a view. -/
theorem State.getLsbD_reg_setReg8_upper (s : State) (r : Reg8) (v : Byte) (q : Reg32) {k : Nat}
    (hk : 16 ≤ k) : ((s.setReg8 r v).reg q).getLsbD k = (s.reg q).getLsbD k := by
  by_cases h : q = reg8Parent r
  · subst h
    rw [State.reg_parent_setReg8, getLsbD_withViewByte, if_neg (by split <;> omega)]
  · rw [State.reg_setReg8_ne s r v h]

/-- R23: the parent of each pair of views, the low one first. -/
theorem reg8Parent_of_views : ∀ x ∈ [(Reg32.eax, Reg8.al, Reg8.ah), (.ecx, .cl, .ch), (.edx, .dl, .dh),
      (.ebx, .bl, .bh)],
    reg8Parent x.2.1 = x.1 ∧ reg8Parent x.2.2 = x.1 ∧
      reg8IsHigh x.2.1 = false ∧ reg8IsHigh x.2.2 = true := by
  decide

/-- Settles O27: the pair's two views have the parent `p` and lie in different bytes of it. -/
theorem byteRegisterWriteTouchesOneByte : Obligations.ByteRegisterWriteTouchesOneByte := by
  intro s v p lo hi hmem
  obtain ⟨hlo, hhi, low, high⟩ := reg8Parent_of_views _ hmem
  dsimp only at hlo hhi low high
  have hne : hi ≠ lo := fun e => by rw [e, low] at high; cases high
  refine ⟨⟨?_, ?_⟩, fun q hq => ⟨?_, ?_⟩, s.reg8_setReg8_same lo v, s.reg8_setReg8_ne v hne,
    s.reg8_setReg8_same hi v, s.reg8_setReg8_ne v hne.symm, fun k hk => ⟨?_, ?_⟩⟩
  · have parent := s.reg_parent_setReg8 lo v
    rwa [hlo, low] at parent
  · have parent := s.reg_parent_setReg8 hi v
    rwa [hhi, high] at parent
  · exact s.reg_setReg8_ne lo v (by rwa [hlo])
  · exact s.reg_setReg8_ne hi v (by rwa [hhi])
  · exact s.getLsbD_reg_setReg8_upper lo v p hk
  · exact s.getLsbD_reg_setReg8_upper hi v p hk

/-! ### The flags word (R27, R28) -/

/-- Settles O29: the codec's laws, and the bits of `subFlags` with the four flag bits excluded. -/
theorem flagWriteIsBitLevel : Obligations.FlagWriteIsBitLevel := by
  refine ⟨fun f => ⟨rfl, rfl, rfl, rfl⟩, fun f k j b hk => getLsbD_putBit f hk b j, ?_⟩
  intro a b f j h0 h6 h7 h11
  rw [getLsbD_subFlags, if_neg h11, if_neg h7, if_neg h6, if_neg h0]

@[simp] theorem State.computeSubFlags_flags (s : State) (a b : Word) :
    (s.computeSubFlags a b).flags = subFlags a b s.flags := rfl

@[simp] theorem State.jumpIf_flags (s : State) (c : Bool) (rel : Byte) :
    (s.jumpIf c rel).flags = s.flags := by
  cases c <;> rfl

@[simp] theorem State.ioWrite_flags (s : State) (port : BitVec 16) (v : Byte) :
    (s.ioWrite port v).flags = s.flags := by
  unfold State.ioWrite
  split <;> rfl

theorem State.ioRead_flags {s t : State} {port : BitVec 16} {v : Byte}
    (h : s.ioRead port = .ok (v, t)) : t.flags = s.flags := by
  rcases State.ioRead_ok h with ⟨-, -, rfl⟩ | ⟨bs, -, -, rfl⟩ <;> rfl

theorem State.writeRM32_flags {s t : State} {d : RM Reg32} {v : Word}
    (h : s.writeRM32 d v = .ok t) : t.flags = s.flags := by
  obtain ⟨-, hflags, -⟩ := State.writeRM32_keeps h
  exact hflags

theorem State.writeRM8_flags {s t : State} {d : RM Reg8} {v : Byte}
    (h : s.writeRM8 d v = .ok t) : t.flags = s.flags := by
  obtain ⟨-, hflags, -⟩ := State.writeRM8_keeps h
  exact hflags

theorem updateRM32_complete_flags {s t : State} {d : RM Reg32} {f : Word → Word}
    (h : complete (s.updateRM32 d f) = .next t) : t.flags = s.flags := by
  obtain ⟨v, -, hw⟩ := State.updateRM32_ok (complete_next.mp h)
  exact State.writeRM32_flags hw

/-- What an IN that completes does: the read completes, and its byte goes to AL. -/
theorem execInAlDx_next {s t : State} (h : execInAlDx s = .next t) :
    ∃ v u, s.ioRead s.port = .ok (v, u) ∧ t = u.setReg8 .al v := by
  unfold execInAlDx at h
  split at h
  case h_1 v u hr => exact ⟨v, u, hr, (next_inj h).symm⟩
  case h_2 => cases h

/-- R28: an instruction that is no subtraction and completes leaves all 32 bits of the flags word. -/
theorem exec_flags_of_not_writer {i : Instr} {s t : State} (h : exec i s = .next t)
    (hi : isFlagWriter i = false) : t.flags = s.flags := by
  cases i with
  | cmpR32Rm32 _ _ | cmpRm32Imm8 _ _ | subRm32Imm8 _ _ => cases hi
  | addRm32R32 _ _ | addRm32Imm8 _ _ | incRm32 _ | decRm32 _ => exact updateRM32_complete_flags h
  | movRm8R8 _ _ => exact State.writeRM8_flags (complete_next.mp h)
  | movRm32R32 _ _ => exact State.writeRM32_flags (complete_next.mp h)
  | movR8Rm8 _ _ | movR32Rm32 _ _ =>
    obtain ⟨v, -, rfl⟩ := except_map_eq_ok (complete_next.mp h)
    rfl
  | movR8Imm8 _ _ | movR32Imm32 _ _ | jmpRel32 _ | jmpRel8 _ => cases h; rfl
  | pushR32 r => exact (State.push32_keeps (complete_next.mp h)).2
  | callRel32 rel =>
    obtain ⟨u, hu, rfl⟩ := except_map_eq_ok (complete_next.mp h)
    exact (State.push32_keeps hu).2
  | popR32 _ | ret | leave =>
    obtain ⟨p, hp, rfl⟩ := except_map_eq_ok (complete_next.mp h)
    exact (State.pop32_keeps hp).2
  | joRel8 _ | jnoRel8 _ | jcRel8 _ | jncRel8 _ | jzRel8 _ | jnzRel8 _ | jbeRel8 _ | jaRel8 _
  | jsRel8 _ | jnsRel8 _ | jlRel8 _ | jgeRel8 _ | jleRel8 _ | jgRel8 _ =>
    cases h
    exact State.jumpIf_flags _ _ _
  | inAlDx =>
    obtain ⟨v, u, hr, rfl⟩ := execInAlDx_next h
    exact (State.setReg8_flags u .al v).trans (State.ioRead_flags hr)
  | outDxAl =>
    cases h
    exact State.ioWrite_flags _ _ _

/-- R178: the flags word a completed CMP r32, rm32 leaves. -/
theorem execCmpR32Rm32_flags {r : Reg32} {d : RM Reg32} {s t : State}
    (h : execCmpR32Rm32 r d s = .next t) :
    ∃ b, s.readRM32 d = .ok b ∧ t.flags = subFlags (s.reg r) b s.flags := by
  obtain ⟨b, hb, rfl⟩ := except_map_eq_ok (complete_next.mp h)
  exact ⟨b, hb, rfl⟩

/-- R177: the flags word a completed CMP rm32, imm8 leaves. -/
theorem execCmpRm32Imm8_flags {d : RM Reg32} {imm : Byte} {s t : State}
    (h : execCmpRm32Imm8 d imm s = .next t) :
    ∃ a, s.readRM32 d = .ok a ∧ t.flags = subFlags a (sext32 imm) s.flags := by
  obtain ⟨a, ha, rfl⟩ := except_map_eq_ok (complete_next.mp h)
  exact ⟨a, ha, rfl⟩

/-- R176: the flags word a completed SUB rm32, imm8 leaves; the store before it touches no flag. -/
theorem execSubRm32Imm8_flags {d : RM Reg32} {imm : Byte} {s t : State}
    (h : execSubRm32Imm8 d imm s = .next t) :
    ∃ a, s.readRM32 d = .ok a ∧ t.flags = subFlags a (sext32 imm) s.flags := by
  obtain ⟨a, ha, hrest⟩ := except_bind_eq_ok (complete_next.mp h)
  obtain ⟨u, hu, rfl⟩ := except_map_eq_ok hrest
  exact ⟨a, ha, by rw [State.computeSubFlags_flags, State.writeRM32_flags hu]⟩

/-- Settles O31, by the flags law of each writer and the frame of every other instruction. -/
theorem onlySubtractionsWriteFlags : Obligations.OnlySubtractionsWriteFlags := by
  intro i s t h
  refine ⟨exec_flags_of_not_writer h, ?_, ?_⟩
  · rintro r d rfl
    exact execCmpR32Rm32_flags h
  · rintro d imm (rfl | rfl)
    · exact execSubRm32Imm8_flags h
    · exact execCmpRm32Imm8_flags h

end Sys2Proof.Machine
end

section
/-! PROOFS of the statements about the memory primitives (20_memory.md): what a read or a write of one
and of four bytes does inside and outside memory, and how the two widths agree. -/

namespace Sys2Proof.Machine

/-! ### The first byte outside memory (R53) -/

/-- An access that has a first byte outside memory does not fit, and that byte is where it or the end
of memory starts, whichever is later: the one `Memory.firstOutside` reports. -/
theorem isFirstOutside.not_fits_and_eq_max {m : Memory} {a n b : Nat} (h : isFirstOutside m a n b) :
    m.size < a + n ∧ b = max a m.size := by
  obtain ⟨hab, hbn, hout, hleast⟩ := h
  have notLater := hleast (max a m.size) (Nat.le_max_left _ _)
  exact ⟨by omega, by omega⟩

/-! ### Byte lanes (R51, R60) -/

/-- R51: lane `k` of a little-endian 32-bit value is the byte at offset `k`. -/
theorem Memory.byteOf_wordAt (m : Memory) (a : Nat) {k : Nat} (hk : k < 4) :
    byteOf (m.wordAt a) k = m.byte (a + k) := by
  rw [Memory.wordAt, byteOf_le32 _ _ _ _ k hk]
  match k, hk with
  | 0, _ | 1, _ | 2, _ | 3, _ => rfl

/-- R54: a 32-bit store puts lane `k` of the value at offset `k`. -/
theorem Memory.byte_setWord_lane {m : Memory} (hw : m.wf) {a : Nat} (ha : a + 4 ≤ m.size) (v : Word)
    {k : Nat} (hk : k < 4) : (m.setWord a v).byte (a + k) = byteOf v k := by
  rw [Memory.byte_setWord hw ha, if_pos (by omega), Nat.add_sub_cancel_left]

/-- The address of a byte of an access that lies in a memory of legal size does not wrap. -/
theorem toNat_add_ofNat_of_fits {addr : Word} {k n size : Nat} (hk : k < n)
    (hfit : addr.toNat + n ≤ size) (hsize : size ≤ 2 ^ 32) :
    (addr + BitVec.ofNat 32 k).toNat = addr.toNat + k := by
  rw [BitVec.toNat_add, BitVec.toNat_ofNat, Nat.mod_eq_of_lt (by omega : k < 2 ^ 32),
    Nat.mod_eq_of_lt (by omega)]

/-! ### The statements -/

/-- Settles O23, from the laws of a read that fits and of a read that does not. -/
theorem memReadPrimitive : Obligations.MemReadPrimitive := by
  intro m addr
  refine ⟨Memory.read8_eq, fun b hb => ?_, Memory.read32_eq, fun b hb => ?_⟩ <;>
    obtain ⟨hout, rfl⟩ := hb.not_fits_and_eq_max
  · exact Memory.read8_err hout
  · exact Memory.read32_err hout

/-- Settles O24, from the laws of a write that fits, byte by byte, and of a write that does not. -/
theorem memWritePrimitive : Obligations.MemWritePrimitive := by
  intro m addr b v hw
  refine ⟨fun hfit => ?_, fun x hx => ?_, fun hfit => ?_, fun x hx => ?_⟩
  · exact ⟨_, Memory.write8_eq hfit b, Memory.setByte_size _ _ _,
      by rw [Memory.byte_setByte hw hfit, if_pos rfl], fun x => Memory.byte_setByte_ne hw _ b⟩
  · obtain ⟨hout, rfl⟩ := hx.not_fits_and_eq_max
    exact Memory.write8_err hout b
  · have lane (k : Nat) (hk : k < 4) := Memory.byte_setWord_lane hw hfit v hk
    exact ⟨_, Memory.write32_eq hfit v, Memory.setWord_size _ _ _, lane 0 (by decide),
      lane 1 (by decide), lane 2 (by decide), lane 3 (by decide),
      fun x => Memory.byte_setWord_outside hw _ v⟩
  · obtain ⟨hout, rfl⟩ := hx.not_fits_and_eq_max
    exact Memory.write32_err hout v

/-- Settles O25: the byte address is `addr + k` without wrap, and both widths see the same byte there. -/
theorem mixedWidthAccess : Obligations.MixedWidthAccess := by
  intro m addr k hw hsize hk hfit
  have hlane := toNat_add_ofNat_of_fits hk hfit hsize
  have hin : (addr + BitVec.ofNat 32 k).toNat + 1 ≤ m.size := by omega
  refine ⟨fun b n hn => ?_, fun v n hn => ?_⟩
  · obtain rfl := Except.ok.inj ((Memory.write8_eq hin b).symm.trans hn)
    refine ⟨_, Memory.read32_eq (by rwa [Memory.setByte_size]), ?_⟩
    calc byteOf ((m.setByte (addr + BitVec.ofNat 32 k).toNat b).wordAt addr.toNat) k
        = (m.setByte (addr + BitVec.ofNat 32 k).toNat b).byte (addr.toNat + k) :=
          Memory.byteOf_wordAt _ _ hk
      _ = b := by rw [Memory.byte_setByte hw hin, if_pos hlane.symm]
  · obtain rfl := Except.ok.inj ((Memory.write32_eq hfit v).symm.trans hn)
    rw [Memory.read8_eq (by rwa [Memory.setWord_size]), hlane, Memory.byte_setWord_lane hw hfit v hk]
    rfl

end Sys2Proof.Machine
end

section
/-! PROOFS of the statements about illegal encodings (30_encoding.md): the unlisted first bytes, the
unlisted selectors of the group opcodes, and the SIB forms. -/

namespace Sys2Proof.Machine

/-! ### Steps that end in the fatal run state (R270) -/

/-- A fatal condition in the fetch is what the step ends in. -/
theorem step_fatal_of_fetch {s : State} {c : Fatal} (hr : s.runState = .running)
    (hf : fetchInstr s.mem s.pc = .error c) : ∃ t, step s = .next t ∧ t.runState = .fatal c :=
  ⟨_, step_of_fetch_error hr hf, s.enterFatal_runState c⟩

/-- A fatal condition that the fetched instruction raises is what the step ends in. -/
theorem step_fatal_of_exec {s : State} {i : Instr} {pc : Word} {c : Fatal}
    (hr : s.runState = .running) (hf : fetchInstr s.mem s.pc = .ok (i, pc))
    (he : exec i (s.setPc pc) = .fault (.fatal c)) :
    ∃ t, step s = .next t ∧ t.runState = .fatal c := by
  refine ⟨s.enterFatal c, ?_, s.enterFatal_runState c⟩
  rw [step_of_fetch hr hf, he]
  rfl

/-- The fetch of bytes that decode. -/
theorem fetchInstr_of_decode {m : Memory} {pc : Word} {bs rest : List Byte} {i : Instr}
    (hs : m.size ≤ 2 ^ 32) (hb : m.holds pc.toNat bs) (h : decode bs = .ok i rest) :
    fetchInstr m pc = .ok (i, pc + BitVec.ofNat 32 (bs.length - rest.length)) :=
  runFetch_of_runList hs (standsAt_of_holds hb) h

/-- The fetch of bytes that decode to an unsupported opcode or selector. -/
theorem fetchInstr_of_decode_unsupported {m : Memory} {pc : Word} {bs : List Byte} {op : Byte}
    {sel : Option (BitVec 3)} (hs : m.size ≤ 2 ^ 32) (hb : m.holds pc.toNat bs)
    (h : decode bs = .unsupported op sel) :
    fetchInstr m pc = .error (.unsupportedOpcode op sel) :=
  runFetch_of_unsupported hs (standsAt_of_holds hb) h

/-! ### Unlisted first bytes (R97) -/

/-- R92: a form fixes the whole opcode byte, or all but a register number in its low bits. -/
theorem OpForm.mask_cases (f : OpForm) : f.mask = 0xFF ∨ f.mask = 0xF8 := by
  cases f <;> decide

/-- R92, R93: the bytes dispatched to a form lie in the interval from its opcode on, as long as its
mask leaves bits free. -/
theorem dispatch_interval {op : Byte} {f : OpForm} (h : dispatch op = some f) :
    f.opcode.toNat ≤ op.toNat ∧ op.toNat ≤ f.opcode.toNat + (0xFF - f.mask.toNat) := by
  have low : ∀ b : Byte, (b &&& 0xF8).toNat ≤ b.toNat ∧ b.toNat ≤ (b &&& 0xF8).toNat + 7 := by
    decide
  rcases OpForm.mask_cases f with hf | hf
  · rw [opcode_of_dispatch hf h]
    omega
  · rw [← dispatch_covers h, hf]
    exact low op

/-- A byte with no form is fetched whatever follows it, and ends the fetch. -/
theorem fetchInstr_of_dispatch_none {m : Memory} {pc : Word} (hpc : pc.toNat < m.size)
    (h : dispatch (m.byte pc.toNat) = none) :
    fetchInstr m pc = .error (.unsupportedOpcode (m.byte pc.toNat) none) := by
  rw [fetchInstr, decodeInstr, runFetch_need8 (Memory.read8_eq hpc), h]
  rfl

/-- Settles O7: no form's interval meets the ranges of R97. -/
theorem unsupportedFirstByteIsFatal : Obligations.UnsupportedFirstByteIsFatal := by
  intro s hr hpc op hop
  refine step_fatal_of_fetch hr (fetchInstr_of_dispatch_none hpc ?_)
  cases hd : dispatch (s.mem.byte s.pc.toNat) with
  | none => rfl
  | some f =>
    obtain ⟨hlo, hhi⟩ : f.opcode.toNat ≤ op ∧ op ≤ _ := dispatch_interval hd
    cases f <;> simp only [OpForm.opcode, OpForm.mask, BitVec.reduceToNat] at hlo hhi <;> omega

/-! ### Unlisted selectors (R98) -/

/-- R91: after the opcode byte of a form the rest is decoded by that form. -/
theorem decode_opcode_cons (f : OpForm) (bs : List Byte) :
    decode (f.opcode :: bs) = (decodeForm f.opcode f).runList bs := by
  rw [decode, decodeInstr, Fetch.runList_need8_cons, dispatch_opcode]

/-- R94: the selectors of the group 0x83 are 0, 5 and 7; another is unsupported once the descriptor
is decoded. -/
theorem decode_group83_unlisted {g : BitVec 3} {d : RM Reg32} (hd : d.wellFormed = true)
    (hadd : g ≠ selAdd) (hsub : g ≠ selSub) (hcmp : g ≠ selCmp) (rest : List Byte) :
    decode (OpForm.group83.opcode :: (encodeRM Reg32.index g d ++ rest)) =
      .unsupported OpForm.group83.opcode (some g) := by
  rw [decode_opcode_cons, decodeForm, runList_decodeModRM Reg32.ofIndex_index _ _ _ hd, if_neg hadd,
    if_neg hsub, if_neg hcmp, Fetch.runList_reject]

/-- R95: the selectors of the group 0xFF are 0 and 1; another is unsupported once the descriptor is
decoded. -/
theorem decode_groupFF_unlisted {g : BitVec 3} {d : RM Reg32} (hd : d.wellFormed = true)
    (hinc : g ≠ selInc) (hdec : g ≠ selDec) (rest : List Byte) :
    decode (OpForm.groupFF.opcode :: (encodeRM Reg32.index g d ++ rest)) =
      .unsupported OpForm.groupFF.opcode (some g) := by
  rw [decode_opcode_cons, decodeForm, runList_decodeModRM Reg32.ofIndex_index _ _ _ hd, if_neg hinc,
    if_neg hdec, Fetch.runList_reject]

/-- Settles O8: the bytes decode to the unsupported selector with nothing after the descriptor. -/
theorem unsupportedSelectorIsFatal : Obligations.UnsupportedSelectorIsFatal := by
  intro s g d hr hs hd
  refine ⟨fun hadd hsub hcmp hb => ?_, fun hinc hdec hb => ?_⟩
  · have hdecode := decode_group83_unlisted hd hadd hsub hcmp []
    rw [List.append_nil] at hdecode
    exact step_fatal_of_fetch hr (fetchInstr_of_decode_unsupported hs hb hdecode)
  · have hdecode := decode_groupFF_unlisted hd hinc hdec []
    rw [List.append_nil] at hdecode
    exact step_fatal_of_fetch hr (fetchInstr_of_decode_unsupported hs hb hdecode)

/-! ### Operands that fault (R125, R128 to R131) -/

theorem State.readRM32_address_error {s : State} {m : MemRef} {c : Fatal}
    (h : s.effectiveAddress m = .error c) : s.readRM32 (.mem m) = .error c := by
  rw [State.readRM32, h, except_bind_error]

theorem State.writeRM32_address_error {s : State} {m : MemRef} {c : Fatal}
    (h : s.effectiveAddress m = .error c) (v : Word) : s.writeRM32 (.mem m) v = .error c := by
  rw [State.writeRM32, h, except_bind_error]

theorem State.readRM8_address_error {s : State} {m : MemRef} {c : Fatal}
    (h : s.effectiveAddress m = .error c) : s.readRM8 (.mem m) = .error c := by
  rw [State.readRM8, h, except_bind_error]

theorem State.writeRM8_address_error {s : State} {m : MemRef} {c : Fatal}
    (h : s.effectiveAddress m = .error c) (v : Byte) : s.writeRM8 (.mem m) v = .error c := by
  rw [State.writeRM8, h, except_bind_error]

theorem complete_bind_error {α : Type} {x : Except Fatal α} {c : Fatal} (h : x = .error c)
    (k : α → Except Fatal State) : complete (x.bind k) = .fault (.fatal c) := by
  rw [h, except_bind_error, complete_error]

theorem complete_map_error {α : Type} {x : Except Fatal α} {c : Fatal} (h : x = .error c)
    (f : α → State) : complete (x.map f) = .fault (.fatal c) := by
  rw [h, except_map_error, complete_error]

/-- An `rm32` operand that can be neither read nor written makes every instruction with that operand
raise the fatal condition: MOV rm32, r32 writes it first, each other one reads it first. -/
theorem exec_rm32Instrs_fault {s : State} {d : RM Reg32} {c : Fatal} (hread : s.readRM32 d = .error c)
    (hwrite : ∀ v, s.writeRM32 d v = .error c) (r : Reg32) (imm : Byte) :
    ∀ i ∈ rm32Instrs d r imm, exec i s = .fault (.fatal c) := by
  have update (f : Word → Word) : complete (s.updateRM32 d f) = .fault (.fatal c) :=
    complete_bind_error hread _
  have move (v : Word) : complete (s.writeRM32 d v) = .fault (.fatal c) := by
    rw [hwrite, complete_error]
  simp only [rm32Instrs, List.forall_mem_cons]
  exact ⟨update _, update _, complete_bind_error hread _, complete_map_error hread _,
    complete_map_error hread _, update _, update _, move _, complete_map_error hread _,
    List.forall_mem_nil _⟩

/-- An `rm8` operand that can be neither read nor written makes both moves raise the fatal condition. -/
theorem exec_rm8Instrs_fault {s : State} {d : RM Reg8} {c : Fatal} (hread : s.readRM8 d = .error c)
    (hwrite : ∀ v, s.writeRM8 d v = .error c) (q : Reg8) :
    ∀ i ∈ rm8Instrs d q, exec i s = .fault (.fatal c) := by
  have store (v : Byte) : complete (s.writeRM8 d v) = .fault (.fatal c) := by
    rw [hwrite, complete_error]
  simp only [rm8Instrs, List.forall_mem_cons]
  exact ⟨store _, complete_map_error hread _, List.forall_mem_nil _⟩

/-- A fatal condition in the address computation is raised by every instruction with a ModRM byte. -/
theorem exec_address_error {s : State} {m : MemRef} {c : Fatal} (h : s.effectiveAddress m = .error c)
    {r : Reg32} {q : Reg8} {imm : Byte} :
    ∀ i ∈ rm32Instrs (.mem m) r imm ++ rm8Instrs (.mem m) q, exec i s = .fault (.fatal c) :=
  List.forall_mem_append.mpr
    ⟨exec_rm32Instrs_fault (State.readRM32_address_error h) (State.writeRM32_address_error h) r imm,
      exec_rm8Instrs_fault (State.readRM8_address_error h) (State.writeRM8_address_error h) q⟩

/-! ### SIB forms (R99) -/

/-- Every instruction with a well-formed `rm32` operand decodes from its encoding. -/
theorem decode_encode_rm32Instrs {d : RM Reg32} (hd : d.wellFormed = true) (r : Reg32) (imm : Byte) :
    ∀ i ∈ rm32Instrs d r imm, ∀ rest, decode (encode i ++ rest) = .ok i rest := by
  simp only [rm32Instrs, List.forall_mem_cons]
  exact ⟨Laws.RoundTrip.addRm32R32 d r hd, Laws.RoundTrip.addRm32Imm8 d imm hd,
    Laws.RoundTrip.subRm32Imm8 d imm hd, Laws.RoundTrip.cmpRm32Imm8 d imm hd,
    Laws.RoundTrip.cmpR32Rm32 r d hd, Laws.RoundTrip.incRm32 d hd, Laws.RoundTrip.decRm32 d hd,
    Laws.RoundTrip.movRm32R32 d r hd, Laws.RoundTrip.movR32Rm32 r d hd, List.forall_mem_nil _⟩

/-- Every instruction with a well-formed `rm8` operand decodes from its encoding. -/
theorem decode_encode_rm8Instrs {d : RM Reg8} (hd : d.wellFormed = true) (q : Reg8) :
    ∀ i ∈ rm8Instrs d q, ∀ rest, decode (encode i ++ rest) = .ok i rest := by
  simp only [rm8Instrs, List.forall_mem_cons]
  exact ⟨Laws.RoundTrip.movRm8R8 d q hd, Laws.RoundTrip.movR8Rm8 q d hd, List.forall_mem_nil _⟩

/-- Settles O56: each SIB form is well formed, so its encoding is fetched, and its address computation
is fatal in every state, so `exec` is too. -/
theorem sibFormsAreUnsupported : Obligations.SibFormsAreUnsupported := by
  intro s sib d8 imm d r q m mode hm i hi
  obtain ⟨hwf, haddr⟩ : m.wellFormed = true ∧
      ∀ u : State, u.effectiveAddress m = .error (.unsupportedAddressing mode 4) := by
    simp only [List.mem_cons, List.not_mem_nil, or_false, Prod.mk.injEq] at hm
    rcases hm with ⟨rfl, rfl⟩ | ⟨rfl, rfl⟩ | ⟨rfl, rfl⟩ <;> exact ⟨rfl, fun _ => rfl⟩
  have hexec (u : State) := exec_address_error (haddr u) i hi
  have hdecode := List.forall_mem_append.mpr
    ⟨decode_encode_rm32Instrs (d := .mem m) hwf r imm, decode_encode_rm8Instrs (d := .mem m) hwf q⟩
    i hi []
  rw [List.append_nil] at hdecode
  exact ⟨hexec s, fun hr hs hb =>
    step_fatal_of_exec hr (fetchInstr_of_decode hs hb hdecode) (hexec _)⟩

end Sys2Proof.Machine
end

section
/-! PROOFS of the statement about ModRM operands (40_modrm_operands.md): the register-direct mode. -/

namespace Sys2Proof.Machine

/-- R82: as a number, the ModRM byte of mode 3 is 0xC0 plus its two fields, each in its place. -/
theorem modrmByte_three_eq_add (g r : BitVec 3) :
    modrmByte 3 g r = 0xC0 + 8 * g.setWidth 8 + r.setWidth 8 := by
  revert g r; decide

/-- R123: a ModRM byte of mode 3 decodes to the register its `rm` field names, and nothing after it
is fetched. -/
theorem runList_decodeModRM_registerDirect {ρ : Type} {toReg : BitVec 3 → ρ} {index : ρ → BitVec 3}
    (hreg : ∀ r, toReg (index r) = r) (hindex : ∀ n, index (toReg n) = n)
    (k : RM ρ → BitVec 3 → Fetch Instr) (g r : BitVec 3) (rest : List Byte) :
    (decodeModRM toReg k).runList (modrmByte 3 g r :: rest) =
      (k (.reg (toReg r)) g).runList rest := by
  have decoded := runList_decodeModRM hreg k g (.reg (toReg r)) rfl rest
  rwa [encodeRM, hindex, List.singleton_append] at decoded

/-- Settles O5: the byte is the encoding of the register-direct operand, in both register files. -/
theorem registerDirectModRMDecodes : Obligations.RegisterDirectModRMDecodes := by
  intro g r rest k k8 b
  have hb : b = modrmByte 3 g r := (modrmByte_three_eq_add g r).symm
  rw [hb]
  exact ⟨runList_decodeModRM_registerDirect Reg32.ofIndex_index Reg32.index_ofIndex k g r rest,
    runList_decodeModRM_registerDirect Reg8.ofIndex_index Reg8.index_ofIndex k8 g r rest,
    Reg32.index_ofIndex r, Reg8.index_ofIndex r⟩

end Sys2Proof.Machine
end

section
/-! PROOFS of the statement about arithmetic and comparison (42_arithmetic_compare.md): what the flags
of a subtraction say of its operands. -/

namespace Sys2Proof.Machine

/-- R170, R171: CF says that `a` is below `b` as unsigned numbers. -/
theorem carryFlag_subFlags_iff (a b f : Word) :
    carryFlag (subFlags a b f) = true ↔ a.toNat < b.toNat := by
  rw [carryFlag_subFlags, subCarry_eq, decide_eq_true_iff]

/-- R170, R171: ZF says that the operands are equal. -/
theorem zeroFlag_subFlags_iff (a b f : Word) : zeroFlag (subFlags a b f) = true ↔ a = b := by
  rw [zeroFlag_subFlags, subZero_eq, decide_eq_true_iff]

/-- R170, R171: OF says that the exact signed difference does not fit in 32 bits. -/
theorem overflowFlag_subFlags_iff (a b f : Word) :
    overflowFlag (subFlags a b f) = true ↔
      a.toInt - b.toInt < -2 ^ 31 ∨ 2 ^ 31 - 1 < a.toInt - b.toInt := by
  rw [overflowFlag_subFlags, subOverflow_iff]
  norm_num

/-- R170, R171: SF and OF differ exactly when `a` is below `b` as signed numbers. -/
theorem signFlag_ne_overflowFlag_subFlags_iff (a b f : Word) :
    signFlag (subFlags a b f) ≠ overflowFlag (subFlags a b f) ↔ a.toInt < b.toInt := by
  rw [signFlag_subFlags, overflowFlag_subFlags, ← bne_iff_ne, less_iff]

/-- Settles O28: the four bits are the flags ZF, CF, SF and OF, whose meanings are stated above. -/
theorem subtractionFlags : Obligations.SubtractionFlags := fun a b f =>
  ⟨zeroFlag_subFlags_iff a b f, carryFlag_subFlags_iff a b f,
    (signFlag_subFlags a b f).trans (subSign_eq a b), overflowFlag_subFlags_iff a b f,
    signFlag_ne_overflowFlag_subFlags_iff a b f⟩

end Sys2Proof.Machine
end

section
/-! PROOFS of the statement about the stack (44_stack.md): a push and then a pop. -/

namespace Sys2Proof.Machine

/-- R230: a successful push touches no register but ESP. -/
theorem State.reg_push32_ne {s t : State} {v : Word} (h : s.push32 v = .ok t) {r : Reg32}
    (hr : r ≠ .esp) : t.reg r = s.reg r := by
  obtain ⟨-, rfl⟩ := State.push32_ok h
  exact s.reg_setReg_ne _ hr

/-- R232: the pop after a successful push reads the pushed slot and moves ESP back up over it. -/
theorem State.pop32_of_push32 {s t : State} {v : Word} (hw : s.mem.wf) (h : s.push32 v = .ok t) :
    t.pop32 = .ok (v, t.setReg .esp (s.reg .esp)) := by
  obtain ⟨hfit, ht⟩ := State.push32_ok h
  have hesp : t.reg .esp = s.reg .esp - 4 := by rw [ht, State.reg_setMem, State.reg_setReg_same]
  have hmem : t.mem = s.mem.setWord (s.reg .esp - 4).toNat v := by rw [ht, State.setMem_mem]
  rw [State.pop32_eq (by rwa [hesp, hmem, Memory.setWord_size]), hesp, hmem,
    Memory.wordAt_setWord_same hw hfit, BitVec.sub_add_cancel]

/-- R230: a successful push leaves its value below the old ESP, little-endian. -/
theorem State.byte_push32 {s t : State} {v : Word} (hw : s.mem.wf) (h : s.push32 v = .ok t)
    {k : Nat} (hk : k < 4) : t.mem.byte ((s.reg .esp - 4).toNat + k) = byteOf v k := by
  obtain ⟨hfit, rfl⟩ := State.push32_ok h
  exact Memory.byte_setWord_lane hw hfit v hk

/-- Settles O52: the pop only moves ESP, back to where it was before the push. -/
theorem pushThenPopRestores : Obligations.PushThenPopRestores := by
  intro s t v hw h
  refine ⟨_, State.pop32_of_push32 hw h, fun r => ?_, fun k hk => State.byte_push32 hw h hk⟩
  by_cases hr : r = .esp
  · rw [hr, State.reg_setReg_same]
  · rw [State.reg_setReg_ne _ _ hr, State.reg_push32_ne h hr]

end Sys2Proof.Machine
end

section
/-! PROOFS of the statements about the encoding (30_encoding.md): the two round trips, the words of the
test vectors, and the length of an instruction that completes. -/

namespace Sys2Proof.Machine

/-! ### From instructions to bytes and back (R80 to R99) -/

/-- The round trip of every constructor. -/
theorem roundTrip : ∀ i : Instr, Laws.RoundTrip.Statement i
  | .addRm32R32 d r => Laws.RoundTrip.addRm32R32 d r
  | .cmpR32Rm32 r d => Laws.RoundTrip.cmpR32Rm32 r d
  | .pushR32 r => Laws.RoundTrip.pushR32 r
  | .popR32 r => Laws.RoundTrip.popR32 r
  | .joRel8 rel => Laws.RoundTrip.joRel8 rel
  | .jnoRel8 rel => Laws.RoundTrip.jnoRel8 rel
  | .jcRel8 rel => Laws.RoundTrip.jcRel8 rel
  | .jncRel8 rel => Laws.RoundTrip.jncRel8 rel
  | .jzRel8 rel => Laws.RoundTrip.jzRel8 rel
  | .jnzRel8 rel => Laws.RoundTrip.jnzRel8 rel
  | .jbeRel8 rel => Laws.RoundTrip.jbeRel8 rel
  | .jaRel8 rel => Laws.RoundTrip.jaRel8 rel
  | .jsRel8 rel => Laws.RoundTrip.jsRel8 rel
  | .jnsRel8 rel => Laws.RoundTrip.jnsRel8 rel
  | .jlRel8 rel => Laws.RoundTrip.jlRel8 rel
  | .jgeRel8 rel => Laws.RoundTrip.jgeRel8 rel
  | .jleRel8 rel => Laws.RoundTrip.jleRel8 rel
  | .jgRel8 rel => Laws.RoundTrip.jgRel8 rel
  | .addRm32Imm8 d imm => Laws.RoundTrip.addRm32Imm8 d imm
  | .subRm32Imm8 d imm => Laws.RoundTrip.subRm32Imm8 d imm
  | .cmpRm32Imm8 d imm => Laws.RoundTrip.cmpRm32Imm8 d imm
  | .movRm8R8 d r => Laws.RoundTrip.movRm8R8 d r
  | .movRm32R32 d r => Laws.RoundTrip.movRm32R32 d r
  | .movR8Rm8 r d => Laws.RoundTrip.movR8Rm8 r d
  | .movR32Rm32 r d => Laws.RoundTrip.movR32Rm32 r d
  | .movR8Imm8 r imm => Laws.RoundTrip.movR8Imm8 r imm
  | .movR32Imm32 r imm => Laws.RoundTrip.movR32Imm32 r imm
  | .ret => Laws.RoundTrip.ret
  | .leave => Laws.RoundTrip.leave
  | .callRel32 rel => Laws.RoundTrip.callRel32 rel
  | .jmpRel32 rel => Laws.RoundTrip.jmpRel32 rel
  | .jmpRel8 rel => Laws.RoundTrip.jmpRel8 rel
  | .inAlDx => Laws.RoundTrip.inAlDx
  | .outDxAl => Laws.RoundTrip.outDxAl
  | .incRm32 d => Laws.RoundTrip.incRm32 d
  | .decRm32 d => Laws.RoundTrip.decRm32 d

/-- Settles O1, constructor by constructor. -/
theorem decodeEncodeRoundTrip : Obligations.DecodeEncodeRoundTrip :=
  fun i rest hi => roundTrip i hi rest

/-! ### From bytes to instructions and back (R96) -/

/-- After the bytes `pre`, whatever the fetch program `p` decodes is well formed, and the bytes from
`pre` on are its encoding and the rest. -/
def DecodesEncodings (pre : List Byte) (p : Fetch Instr) : Prop :=
  ∀ bs i rest, p.runList bs = .ok i rest → i.wellFormed = true ∧ pre ++ bs = encode i ++ rest

theorem DecodesEncodings.done {pre : List Byte} {i : Instr} (hi : i.wellFormed = true)
    (he : pre = encode i) : DecodesEncodings pre (.done i) := by
  intro bs j rest h
  rw [Fetch.runList_done] at h
  cases h
  exact ⟨hi, by rw [he]⟩

theorem DecodesEncodings.reject (pre : List Byte) (op : Byte) (sel : Option (BitVec 3)) :
    DecodesEncodings pre (.reject op sel) := by
  intro bs i rest h
  rw [Fetch.runList_reject] at h
  cases h

theorem DecodesEncodings.need8 {pre : List Byte} {k : Byte → Fetch Instr}
    (hk : ∀ b, DecodesEncodings (pre ++ [b]) (k b)) : DecodesEncodings pre (.need8 k) := by
  intro bs i rest h
  obtain ⟨b, cs, rfl, htail⟩ := runList_need8_ok h
  simpa using hk b cs i rest htail

theorem DecodesEncodings.need32 {pre : List Byte} {k : Word → Fetch Instr}
    (hk : ∀ w, DecodesEncodings (pre ++ le32Bytes w) (k w)) : DecodesEncodings pre (.need32 k) := by
  intro bs i rest h
  obtain ⟨w, cs, rfl, htail⟩ := runList_need32_ok h
  simpa using hk w cs i rest htail

theorem DecodesEncodings.modRM {ρ : Type} {toReg : BitVec 3 → ρ} {index : ρ → BitVec 3}
    (hindex : ∀ n, index (toReg n) = n) {pre : List Byte} {k : RM ρ → BitVec 3 → Fetch Instr}
    (hk : ∀ d g, d.wellFormed = true → DecodesEncodings (pre ++ encodeRM index g d) (k d g)) :
    DecodesEncodings pre (decodeModRM toReg k) := by
  intro bs i rest h
  obtain ⟨d, g, cs, hd, rfl, htail⟩ := decodeModRM_ok hindex h
  simpa using hk d g hd cs i rest htail

/-- R94: what follows the descriptor of the group 0x83. -/
theorem decodesEncodings_group83 :
    DecodesEncodings [OpForm.group83.opcode] (decodeForm OpForm.group83.opcode .group83) := by
  rw [decodeForm]
  refine .modRM Reg32.index_ofIndex fun d sel hd => ?_
  split_ifs with hadd hsub hcmp
  · exact .need8 fun imm => .done hd (by rw [hadd]; rfl)
  · exact .need8 fun imm => .done hd (by rw [hsub]; rfl)
  · exact .need8 fun imm => .done hd (by rw [hcmp]; rfl)
  · exact .reject _ _ _

/-- R95: what follows the descriptor of the group 0xFF. -/
theorem decodesEncodings_groupFF :
    DecodesEncodings [OpForm.groupFF.opcode] (decodeForm OpForm.groupFF.opcode .groupFF) := by
  rw [decodeForm]
  refine .modRM Reg32.index_ofIndex fun d sel hd => ?_
  split_ifs with hinc hdec
  · exact .done hd (by rw [hinc]; rfl)
  · exact .done hd (by rw [hdec]; rfl)
  · exact .reject _ _ _

/-- R92: a register-in-opcode family decodes the register from the opcode byte. -/
theorem decodesEncodings_opReg {op : Byte} {f : OpForm} (hf : f.mask = 0xF8)
    (h : dispatch op = some f) : DecodesEncodings [op] (decodeForm op f) := by
  have hop := opWithReg_opReg hf h
  cases f with
  | pushR32 | popR32 => exact .done rfl (by rw [encode, Reg32.index_ofIndex, hop])
  | movR8Imm8 =>
    exact .need8 fun imm => .done rfl (by rw [encode, Reg8.index_ofIndex, hop]; rfl)
  | movR32Imm32 =>
    exact .need32 fun imm => .done rfl (by rw [encode, Reg32.index_ofIndex, hop]; rfl)
  | _ => exact absurd hf (by decide)

/-- Every form whose opcode is one byte value decodes encodings after that byte. -/
theorem decodesEncodings_opcode {f : OpForm} (hf : f.mask = 0xFF) :
    DecodesEncodings [f.opcode] (decodeForm f.opcode f) := by
  cases f with
  | pushR32 | popR32 | movR8Imm8 | movR32Imm32 => exact absurd hf (by decide)
  | ret | leave | inAlDx | outDxAl => exact .done rfl rfl
  | joRel8 | jnoRel8 | jcRel8 | jncRel8 | jzRel8 | jnzRel8 | jbeRel8 | jaRel8 | jsRel8 | jnsRel8
  | jlRel8 | jgeRel8 | jleRel8 | jgRel8 | jmpRel8 => exact .need8 fun rel => .done rfl rfl
  | callRel32 | jmpRel32 => exact .need32 fun rel => .done rfl rfl
  | addRm32R32 | cmpR32Rm32 | movRm32R32 | movR32Rm32 =>
    rw [decodeForm]
    exact .modRM Reg32.index_ofIndex fun d g hd =>
      .done hd (by rw [encode, Reg32.index_ofIndex]; rfl)
  | movRm8R8 | movR8Rm8 =>
    rw [decodeForm]
    exact .modRM Reg8.index_ofIndex fun d g hd => .done hd (by rw [encode, Reg8.index_ofIndex]; rfl)
  | group83 => exact decodesEncodings_group83
  | groupFF => exact decodesEncodings_groupFF

/-- Settles O2: the decoder fetches the opcode byte, and the form it selects decodes encodings after
it. -/
theorem encodeDecodeRoundTrip : Obligations.EncodeDecodeRoundTrip := by
  intro bs i rest h
  suffices DecodesEncodings [] decodeInstr from this bs i rest h
  refine .need8 fun op => ?_
  rw [List.nil_append]
  cases hop : dispatch op with
  | none => exact .reject _ _ _
  | some f =>
    rcases OpForm.mask_cases f with hf | hf
    · have hform := decodesEncodings_opcode hf
      rwa [opcode_of_dispatch hf hop] at hform
    · exact decodesEncodings_opReg hf hop

/-- Settles O3, by running the decoder on the twelve words. -/
theorem specWordsDecode : Obligations.SpecWordsDecode := by
  unfold Obligations.SpecWordsDecode
  decide

/-! ### Lengths (R80) -/

/-- R84: a descriptor has at most a ModRM byte, a SIB byte and four displacement bytes. -/
theorem length_encodeRM {ρ : Type} (index : ρ → BitVec 3) (g : BitVec 3) (d : RM ρ) :
    1 ≤ (encodeRM index g d).length ∧ (encodeRM index g d).length ≤ 6 := by
  cases d with
  | reg r => exact ⟨le_rfl, Nat.le_add_left 1 5⟩
  | mem m => cases m <;> exact ⟨Nat.le_add_left _ _, by simp [encodeRM, encodeMem, le32Bytes]⟩

/-- R99: the descriptor of an operand that can be read has no SIB byte. -/
theorem length_encodeRM_of_readRM32 {s : State} {d : RM Reg32} {v : Word} (h : s.readRM32 d = .ok v)
    (g : BitVec 3) : (encodeRM Reg32.index g d).length ≤ 5 := by
  cases d with
  | reg r => exact Nat.le_add_left 1 4
  | mem m =>
    cases m with
    | sib _ | sibDisp8 _ _ | sibDisp32 _ _ => cases h
    | base _ | disp _ | baseDisp8 _ _ | baseDisp32 _ _ => simp [encodeRM, encodeMem, le32Bytes]

/-- R81: the length of a group 0x83 instruction: the opcode byte, the descriptor, the immediate. -/
theorem length_group83 {d : RM Reg32} {g : BitVec 3} (hd : (encodeRM Reg32.index g d).length ≤ 5)
    (op imm : Byte) :
    1 ≤ (op :: (encodeRM Reg32.index g d ++ [imm])).length ∧
      (op :: (encodeRM Reg32.index g d ++ [imm])).length ≤ 7 := by
  simp only [List.length_cons, List.length_append, List.length_nil]
  omega

/-- R81: the length of an instruction of an opcode byte and a descriptor. -/
theorem length_opcode_encodeRM {ρ : Type} (index : ρ → BitVec 3) (g : BitVec 3) (d : RM ρ)
    (op : Byte) :
    1 ≤ (op :: encodeRM index g d).length ∧ (op :: encodeRM index g d).length ≤ 7 := by
  have := length_encodeRM index g d
  simp only [List.length_cons]
  omega

/-- Settles O4: eight bytes would take an immediate after a SIB form, and the three instructions with
an immediate after a descriptor complete only if their operand can be read. -/
theorem completingInstructionLength : Obligations.CompletingInstructionLength := by
  intro i s t h
  cases i with
  | addRm32Imm8 d imm | subRm32Imm8 d imm =>
    obtain ⟨v, hv, -⟩ := except_bind_eq_ok (complete_next.mp h)
    exact length_group83 (length_encodeRM_of_readRM32 hv _) _ imm
  | cmpRm32Imm8 d imm =>
    obtain ⟨v, hv, -⟩ := except_map_eq_ok (complete_next.mp h)
    exact length_group83 (length_encodeRM_of_readRM32 hv _) _ imm
  | addRm32R32 d _ | cmpR32Rm32 _ d | movRm8R8 d _ | movRm32R32 d _ | movR8Rm8 _ d | movR32Rm32 _ d
  | incRm32 d | decRm32 d => exact length_opcode_encodeRM _ _ d _
  | _ => exact ⟨Nat.le_add_left _ _, by simp [encode, le32Bytes]⟩

end Sys2Proof.Machine
end

section
/-! PROOFS of the statements about the step (70_reset_and_hazards.md): what a step runs and how it
ends, what it keeps, and the reset. -/

namespace Sys2Proof.Machine

/-! ### What an instruction can answer (R315) -/

/-- R16: what the common end of an instruction without port access can answer. -/
theorem complete_cases (r : Except Fatal State) :
    (∃ t, complete r = .next t) ∨ ∃ c, complete r = .fault (.fatal c) := by
  cases r with
  | ok t => exact .inl ⟨t, rfl⟩
  | error c => exact .inr ⟨c, rfl⟩

/-- R252, R255: IN completes, or waits at the device's port with no byte ready. -/
theorem execInAlDx_cases (s : State) :
    (∃ t, execInAlDx s = .next t) ∨
      (execInAlDx s = .fault .blockedOnInput ∧ s.port = devicePort ∧ s.input = []) := by
  unfold execInAlDx State.ioRead
  split_ifs with hport
  · cases hin : s.input with
    | nil => exact .inr ⟨rfl, hport, rfl⟩
    | cons b bs => exact .inl ⟨_, rfl⟩
  · exact .inl ⟨_, rfl⟩

/-- Everything an instruction can answer: no refusal, and no fault but a fatal condition and the
blocked IN. -/
theorem exec_cases (i : Instr) (s : State) :
    ((∃ t, exec i s = .next t) ∨ ∃ c, exec i s = .fault (.fatal c)) ∨
      (i = .inAlDx ∧ exec i s = .fault .blockedOnInput ∧ s.port = devicePort ∧ s.input = []) := by
  cases i with
  | inAlDx => exact (execInAlDx_cases s).imp .inl fun h => ⟨rfl, h⟩
  | movR8Imm8 _ _ | movR32Imm32 _ _ | jmpRel32 _ | jmpRel8 _ | outDxAl | joRel8 _ | jnoRel8 _
  | jcRel8 _ | jncRel8 _ | jzRel8 _ | jnzRel8 _ | jbeRel8 _ | jaRel8 _ | jsRel8 _ | jnsRel8 _
  | jlRel8 _ | jgeRel8 _ | jleRel8 _ | jgRel8 _ => exact .inl (.inl ⟨_, rfl⟩)
  | _ => exact .inl (complete_cases _)

/-- A step answers a state, or it has met the blocked IN. -/
theorem step_not_next_cases (s : State) :
    (∃ t, step s = .next t) ∨
      (step s = .fault .blockedOnInput ∧ s.runState = .running ∧ s.port = devicePort ∧
        s.input = [] ∧ ∃ pc, fetchInstr s.mem s.pc = .ok (.inAlDx, pc)) := by
  by_cases hr : s.runState = .running
  · cases hf : fetchInstr s.mem s.pc with
    | error c => exact .inl ⟨_, step_of_fetch_error hr hf⟩
    | ok p =>
      obtain ⟨i, pc⟩ := p
      have hstep := step_of_fetch hr hf
      rcases exec_cases i (s.setPc pc) with (⟨t, he⟩ | ⟨c, he⟩) | ⟨rfl, he, hport, hin⟩ <;>
        rw [he] at hstep
      · exact .inl ⟨_, hstep⟩
      · exact .inl ⟨_, hstep⟩
      · exact .inr ⟨hstep, hr, hport, hin, pc, rfl⟩
  · exact .inl ⟨s, step_ended hr⟩

/-- Settles O11: a step that answers no state met a blocked IN. -/
theorem onlyPortReadBlocks : Obligations.OnlyPortReadBlocks := by
  intro s
  rcases step_not_next_cases s with ⟨t, ht⟩ | ⟨hb, hr, hport, hin, hfetch⟩
  · rw [ht]
    exact ⟨fun _ => nofun, fun _ => nofun⟩
  · rw [hb]
    refine ⟨fun _ => nofun, fun f h => ?_⟩
    cases h
    exact ⟨rfl, hr, hin, hport, hfetch⟩

/-! ### How a step ends (R315, R316, R318, R55, R277) -/

/-- Settles O6: the fetch gives `i` and the address after its bytes, and `afterInstr` is the end of a
step. -/
theorem stepRunsDecodedInstruction : Obligations.StepRunsDecodedInstruction := by
  intro s bs rest i hr hs hb hd s1
  have hstep : step s = afterInstr s (exec i s1) := step_of_fetch hr (fetchInstr_of_decode hs hb hd)
  refine ⟨fun t h => ?_, fun c h => ⟨s.enterFatal c, ?_, rfl⟩, fun h => ?_⟩ <;>
    (rw [hstep, h]; rfl)

/-- Settles O9: the fetch of the opcode byte is the one that fails. -/
theorem opcodeFetchOutsideMemoryIsFatal : Obligations.OpcodeFetchOutsideMemoryIsFatal := by
  intro s hr hpc
  refine step_fatal_of_fetch hr ?_
  rw [fetchInstr, decodeInstr, runFetch, Memory.read8_err (Nat.lt_succ_of_le hpc),
    Nat.max_eq_left hpc]

/-- R94: a listed selector of the group 0x83 asks for an immediate once the descriptor is decoded. -/
theorem decode_group83_truncated {g : BitVec 3} {d : RM Reg32} (hd : d.wellFormed = true)
    (hg : g = selAdd ∨ g = selSub ∨ g = selCmp) :
    decode (OpForm.group83.opcode :: encodeRM Reg32.index g d) = .truncated := by
  rw [decode_opcode_cons, decodeForm, ← List.append_nil (encodeRM _ _ _),
    runList_decodeModRM Reg32.ofIndex_index _ _ _ hd]
  rcases hg with rfl | rfl | rfl <;> rfl

/-- Settles O10: decoding is truncated at the immediate, before any address is computed. -/
theorem missingImmediateBeforeAddressing : Obligations.MissingImmediateBeforeAddressing := by
  intro s g d hr hs hd hg hb hend
  exact step_fatal_of_fetch hr
    (runFetch_of_truncated hs (standsAt_of_holds hb) hend (decode_group83_truncated hd hg))

/-- Settles O13, by the law of a step of an ended engine. -/
theorem endedEngineDoesNothing : Obligations.EndedEngineDoesNothing := by
  intro s c h
  refine step_ended fun hr => ?_
  rcases h with h | h <;> rw [hr] at h <;> cases h

@[simp] theorem State.checkSentinel_pc (t : State) : t.checkSentinel.pc = t.pc := by
  unfold State.checkSentinel; split <;> rfl

@[simp] theorem State.checkSentinel_mem (t : State) : t.checkSentinel.mem = t.mem := by
  unfold State.checkSentinel; split <;> rfl

@[simp] theorem State.checkSentinel_flags (t : State) : t.checkSentinel.flags = t.flags := by
  unfold State.checkSentinel; split <;> rfl

@[simp] theorem State.checkSentinel_input (t : State) : t.checkSentinel.input = t.input := by
  unfold State.checkSentinel; split <;> rfl

@[simp] theorem State.checkSentinel_output (t : State) : t.checkSentinel.output = t.output := by
  unfold State.checkSentinel; split <;> rfl

/-- R316: what the sentinel test makes of the run state. -/
theorem State.checkSentinel_runState (t : State) :
    t.checkSentinel.runState = if t.pc = 0 then .stopped else t.runState := by
  unfold State.checkSentinel; split <;> rfl

/-- The run state after the sentinel test of an instruction that a running engine completed. -/
theorem runState_checkSentinel_of_exec {i : Instr} {s u : State} {pc : Word}
    (hr : s.runState = .running) (he : exec i (s.setPc pc) = .next u) :
    u.checkSentinel.runState = if u.pc = 0 then .stopped else .running := by
  have kept : u.runState = s.runState := (exec_keeps he).runState
  rw [State.checkSentinel_runState, kept, hr]

/-- Settles O12: only a completed instruction leads from a running state to one that is not fatal. -/
theorem sentinelEndsRun : Obligations.SentinelEndsRun := by
  intro s t hr h hfatal
  rcases step_next_cases h with ⟨hne, -⟩ | ⟨-, c, rfl⟩ | ⟨-, i, pc, u, -, he, rfl⟩
  · exact absurd hr hne
  · rw [State.enterFatal_isFatal] at hfatal
    cases hfatal
  · rw [State.checkSentinel_pc, runState_checkSentinel_of_exec hr he]
    exact ⟨fun hpc => if_pos hpc, fun hpc => if_neg hpc⟩

/-! ### What a step keeps (R50, R29, R316) -/

/-- Settles O22: the size is kept by an instruction, by the sentinel test and by a fatal outcome. -/
theorem stepKeepsMemorySize : Obligations.StepKeepsMemorySize := by
  intro s t h
  rcases step_next_cases h with ⟨-, rfl⟩ | ⟨-, c, rfl⟩ | ⟨-, i, pc, u, -, he, rfl⟩
  · rfl
  · exact s.enterFatal_mem_size c
  · rw [State.checkSentinel_mem]
    exact (exec_keeps he).size

/-- R29: an instruction that completes leaves inert bits that are 0 at 0. -/
theorem Keeps.inertZero {s t : State} (h : Keeps s t) (hz : inertZero s.flags) :
    inertZero t.flags := by
  rcases h.flags with hf | ⟨a, b, hf⟩ <;> rw [hf]
  · exact hz
  · exact fun k hk => (subFlags_inert a b s.flags hk).trans (hz k hk)

/-- A fatal outcome keeps the invariant: nothing is asked there but of the memory. -/
theorem State.Inv.enterFatal {s : State} (h : s.Inv) (c : Fatal) : (s.enterFatal c).Inv where
  mem_wf := State.enterFatal_mem_wf h.mem_wf c
  size_pos := by rw [State.enterFatal_mem_size]; exact h.size_pos
  size_le := by rw [State.enterFatal_mem_size]; exact h.size_le
  running_pc := fun hr => by cases hr
  stopped_pc := fun hr => by cases hr
  inert := fun hf => by cases hf

/-- A completed instruction and the sentinel test after it keep the invariant. -/
theorem State.Inv.checkSentinel {i : Instr} {s u : State} {pc : Word} (h : s.Inv)
    (hr : s.runState = .running) (he : exec i (s.setPc pc) = .next u) : u.checkSentinel.Inv := by
  have kept := exec_keeps he
  have hend := runState_checkSentinel_of_exec hr he
  have hsize : u.mem.size = s.mem.size := kept.size
  have hinert : inertZero s.flags := h.inert (by rw [State.isFatal, hr])
  refine ⟨?_, ?_, ?_, fun hrun => ?_, fun hstop => ?_, fun _ => ?_⟩
  · rw [State.checkSentinel_mem]
    exact kept.wf h.mem_wf
  · rw [State.checkSentinel_mem, hsize]
    exact h.size_pos
  · rw [State.checkSentinel_mem, hsize]
    exact h.size_le
  · rw [State.checkSentinel_pc]
    intro hpc
    rw [hend, if_pos hpc] at hrun
    cases hrun
  · rw [State.checkSentinel_pc]
    by_contra hpc
    rw [hend, if_neg hpc] at hstop
    cases hstop
  · rw [State.checkSentinel_flags]
    exact kept.inertZero hinert

/-- Settles O15: each of the three things a step can do keeps the invariant. -/
theorem stepKeepsInvariant : Obligations.StepKeepsInvariant := by
  intro s t hinv h
  rcases step_next_cases h with ⟨-, rfl⟩ | ⟨-, c, rfl⟩ | ⟨hr, i, pc, u, -, he, rfl⟩
  · exact hinv
  · exact hinv.enterFatal c
  · exact hinv.checkSentinel hr he

/-! ### The streams (R252, R253, R319) -/

theorem State.jumpIf_streams (s : State) (c : Bool) (rel : Byte) : streamsSame s (s.jumpIf c rel) := by
  cases c <;> exact ⟨rfl, rfl⟩

theorem State.writeRM32_streams {s t : State} {d : RM Reg32} {v : Word}
    (h : s.writeRM32 d v = .ok t) : streamsSame s t := by
  obtain ⟨-, -, -, hstreams⟩ := State.writeRM32_keeps h
  exact hstreams

theorem updateRM32_complete_streams {s t : State} {d : RM Reg32} {f : Word → Word}
    (h : complete (s.updateRM32 d f) = .next t) : streamsSame s t := by
  obtain ⟨v, -, hw⟩ := State.updateRM32_ok (complete_next.mp h)
  exact State.writeRM32_streams hw

/-- Only IN and OUT touch the port device. -/
theorem exec_streams {i : Instr} {s t : State} (h : exec i s = .next t) (hin : i ≠ .inAlDx)
    (hout : i ≠ .outDxAl) : streamsSame s t := by
  cases i with
  | inAlDx => exact absurd rfl hin
  | outDxAl => exact absurd rfl hout
  | addRm32R32 _ _ | addRm32Imm8 _ _ | incRm32 _ | decRm32 _ => exact updateRM32_complete_streams h
  | subRm32Imm8 d imm =>
    obtain ⟨a, -, hrest⟩ := except_bind_eq_ok (complete_next.mp h)
    obtain ⟨u, hu, rfl⟩ := except_map_eq_ok hrest
    have same := State.writeRM32_streams hu
    exact same
  | movRm8R8 d r =>
    obtain ⟨-, -, -, hstreams⟩ := State.writeRM8_keeps (complete_next.mp h)
    exact hstreams
  | movRm32R32 d r => exact State.writeRM32_streams (complete_next.mp h)
  | cmpR32Rm32 _ _ | cmpRm32Imm8 _ _ | movR8Rm8 _ _ | movR32Rm32 _ _ =>
    obtain ⟨v, -, rfl⟩ := except_map_eq_ok (complete_next.mp h)
    exact ⟨rfl, rfl⟩
  | pushR32 r =>
    obtain ⟨-, rfl⟩ := State.push32_ok (complete_next.mp h)
    exact ⟨rfl, rfl⟩
  | callRel32 rel =>
    obtain ⟨u, hu, rfl⟩ := except_map_eq_ok (complete_next.mp h)
    obtain ⟨-, rfl⟩ := State.push32_ok hu
    exact ⟨rfl, rfl⟩
  | popR32 _ | ret | leave =>
    obtain ⟨p, hp, rfl⟩ := except_map_eq_ok (complete_next.mp h)
    obtain ⟨-, rfl⟩ := State.pop32_ok hp
    exact ⟨rfl, rfl⟩
  | movR8Imm8 _ _ | movR32Imm32 _ _ | jmpRel32 _ | jmpRel8 _ => cases h; exact ⟨rfl, rfl⟩
  | joRel8 _ | jnoRel8 _ | jcRel8 _ | jncRel8 _ | jzRel8 _ | jnzRel8 _ | jbeRel8 _ | jaRel8 _
  | jsRel8 _ | jnsRel8 _ | jlRel8 _ | jgeRel8 _ | jleRel8 _ | jgRel8 _ =>
    cases h
    exact State.jumpIf_streams _ _ _

/-- R252: IN takes the first byte of the input or none, and hands out nothing. -/
theorem execInAlDx_streams {s t : State} (h : execInAlDx s = .next t) :
    t.output = s.output ∧ (t.input = s.input ∨ ∃ v, s.input = v :: t.input) := by
  obtain ⟨v, u, hr, rfl⟩ := execInAlDx_next h
  rcases State.ioRead_ok hr with ⟨-, -, rfl⟩ | ⟨bs, -, hin, rfl⟩
  · exact ⟨rfl, .inl rfl⟩
  · exact ⟨rfl, .inr ⟨v, hin⟩⟩

/-- R253: OUT appends one byte to the output or none, and takes nothing. -/
theorem execOutDxAl_streams {s t : State} (h : execOutDxAl s = .next t) :
    t.input = s.input ∧ (t.output = s.output ∨ ∃ v, t.output = s.output ++ [v]) := by
  cases h
  unfold State.ioWrite
  split
  · exact ⟨rfl, .inr ⟨_, rfl⟩⟩
  · exact ⟨rfl, .inl rfl⟩

/-- Settles O14: an ended engine and a fatal outcome leave the streams, and so does every completed
instruction but IN and OUT. -/
theorem onlyPortAccessMovesStreams : Obligations.OnlyPortAccessMovesStreams := by
  intro s t h
  rcases step_next_cases h with ⟨-, rfl⟩ | ⟨-, c, rfl⟩ | ⟨hr, i, pc, u, hf, he, rfl⟩
  · exact ⟨.inl rfl, .inl rfl⟩
  · exact ⟨.inl rfl, .inl rfl⟩
  · rw [State.checkSentinel_output, State.checkSentinel_input]
    by_cases hin : i = .inAlDx
    · subst hin
      obtain ⟨hout, htake⟩ := execInAlDx_streams he
      exact ⟨.inl hout, htake.imp_right fun hv => ⟨⟨pc, hf⟩, hv⟩⟩
    by_cases hout : i = .outDxAl
    · subst hout
      obtain ⟨hin', hgive⟩ := execOutDxAl_streams he
      exact ⟨hgive.imp_right fun hv => ⟨⟨pc, hf⟩, hv⟩, .inl hin'⟩
    obtain ⟨hsame, hsame'⟩ := exec_streams he hin hout
    exact ⟨.inl hsame', .inl hsame⟩

/-! ### Reset (R40 to R43, R310 to R314) -/

/-- A state created with a legal memory size and away from the sentinel meets the invariant. -/
theorem State.create_inv {n : Nat} {pc : Word} (sp : Word) (hpos : 1 ≤ n) (hle : n ≤ 2 ^ 32)
    (hpc : pc ≠ 0) : (State.create n pc sp).Inv where
  mem_wf := State.create_mem_wf n pc sp
  size_pos := hpos
  size_le := hle
  running_pc := fun _ => hpc
  stopped_pc := fun h => by cases h
  inert := fun _ k _ => BitVec.getLsbD_zero

/-- Settles O16: the parameters of `State.reset` are legal. -/
theorem resetMeetsInvariant : Obligations.ResetMeetsInvariant :=
  State.create_inv Config.initSp (by decide) (by decide) (by decide)

/-- Settles O17: a reset that is not refused had legal parameters, and loading the image keeps the
memory's form and size. -/
theorem bootMeetsInvariant : Obligations.BootMeetsInvariant := by
  intro p s h
  obtain ⟨⟨hpos, hle⟩, hpc, -, rfl⟩ := State.boot_ok h
  have created := State.create_inv p.initSp hpos hle hpc
  have size := Memory.loadImage_size (State.create p.memSize p.initPc p.initSp).mem p.loadAddr p.image
  exact ⟨Memory.loadImage_wf created.mem_wf _ _, hpos.trans_eq size.symm, size.trans_le hle,
    created.running_pc, created.stopped_pc, created.inert⟩

/-- Settles O20: the created registers are zero but for ESP, and loading touches none. -/
theorem bootOtherRegistersZero : Obligations.BootOtherRegistersZero := by
  intro p s h
  obtain ⟨-, -, -, rfl⟩ := State.boot_ok h
  refine ⟨fun r hr => ?_, rfl⟩
  cases r with
  | esp => exact absurd rfl hr
  | _ => rfl

/-- Settles O21: the three tests of `State.boot` are the four conditions. -/
theorem bootRefusesExactlyBadParameters : Obligations.BootRefusesExactlyBadParameters := by
  intro p
  unfold State.boot
  split_ifs with hsize hpc hfit
  · exact iff_of_true ⟨_, rfl⟩ (by omega)
  · exact iff_of_true ⟨_, rfl⟩ (.inr (.inr (.inl hpc)))
  · exact iff_of_true ⟨_, rfl⟩ (.inr (.inr (.inr hfit)))
  · refine iff_of_false (fun ⟨r, hr⟩ => by cases hr) ?_
    rintro (h | h | h | h)
    · omega
    · omega
    · exact hpc h
    · exact hfit h

end Sys2Proof.Machine
end

section
/-! PROOFS of the statements about who reads the flags word (10_state.md) and about the jumps
(43_control_transfer.md). -/

namespace Sys2Proof.Machine

/-! ### The jumps (R200 to R217) -/

/-- Settles O45: both meanings are `State.jump`. -/
theorem jmpCompletes : Obligations.JmpCompletes := fun _ _ _ => ⟨rfl, rfl⟩

/-- Settles O46: the conditions of the model are the flag bits, up to how the last four negations are
written. -/
theorem conditionalJumpsComplete : Obligations.ConditionalJumpsComplete := by
  intro s rel cf zf sf ov go
  have above : (!(cf || zf)) = (!cf && !zf) := Bool.not_or _ _
  have greaterEqual : (!(sf != ov)) = (sf == ov) := Bool.not_not _
  have greater : (!(zf || sf != ov)) = (!zf && sf == ov) := by rw [Bool.not_or, greaterEqual]
  refine ⟨rfl, rfl, rfl, rfl, rfl, rfl, rfl, ?_, rfl, rfl, rfl, ?_, rfl, ?_⟩
  · rw [← above]; rfl
  · rw [← greaterEqual]; rfl
  · rw [← greater]; rfl

/-- Settles O30: each condition is a flag or a combination of flags whose meanings after a compare are
known; "or equal" adds the zero flag. -/
theorem conditionsAfterCompare : Obligations.ConditionsAfterCompare := by
  intro a b f
  have below := carryFlag_subFlags_iff a b f
  have equal := zeroFlag_subFlags_iff a b f
  have less := signFlag_ne_overflowFlag_subFlags_iff a b f
  refine ⟨overflowFlag_subFlags_iff a b f, below, equal, ?_, ?_, bne_iff_ne.trans less, ?_⟩
  · rw [condBelowEqual, Bool.or_eq_true, below, equal, ← BitVec.toNat_inj]
    omega
  · have sign : (a - b).getLsbD 31 = (a - b).msb := (BitVec.msb_eq_getLsbD_last _).symm
    rw [condSign, signFlag_subFlags, subSign_eq, sign, BitVec.msb_eq_toInt, decide_eq_true_iff]
  · rw [condLessEqual, Bool.or_eq_true, equal, bne_iff_ne, less, ← BitVec.toInt_inj]
    omega

/-! ### Operations that do not read the flags word (R26, R29) -/

section
variable (s : State) (g : Word)

theorem State.effectiveAddress_setFlags (m : MemRef) :
    (s.setFlags g).effectiveAddress m = s.effectiveAddress m :=
  State.effectiveAddress_congr (s.setFlags_regs g) m

theorem State.readRM32_setFlags (d : RM Reg32) : (s.setFlags g).readRM32 d = s.readRM32 d := by
  cases d with
  | reg r => rfl
  | mem m => rw [State.readRM32, State.effectiveAddress_setFlags]; rfl

theorem State.readRM8_setFlags (d : RM Reg8) : (s.setFlags g).readRM8 d = s.readRM8 d := by
  cases d with
  | reg r => rfl
  | mem m => rw [State.readRM8, State.effectiveAddress_setFlags]; rfl

theorem State.store32_setFlags (a v : Word) :
    (s.setFlags g).store32 a v = (s.store32 a v).map (·.setFlags g) := by
  unfold State.store32
  rw [State.setFlags_mem]
  cases s.mem.write32 a v <;> rfl

theorem State.store8_setFlags (a : Word) (v : Byte) :
    (s.setFlags g).store8 a v = (s.store8 a v).map (·.setFlags g) := by
  unfold State.store8
  rw [State.setFlags_mem]
  cases s.mem.write8 a v <;> rfl

theorem State.writeRM32_setFlags (d : RM Reg32) (v : Word) :
    (s.setFlags g).writeRM32 d v = (s.writeRM32 d v).map (·.setFlags g) := by
  cases d with
  | reg r => rfl
  | mem m =>
    simp only [State.writeRM32, State.effectiveAddress_setFlags]
    cases s.effectiveAddress m with
    | error c => rfl
    | ok a => exact s.store32_setFlags g a v

theorem State.writeRM8_setFlags (d : RM Reg8) (v : Byte) :
    (s.setFlags g).writeRM8 d v = (s.writeRM8 d v).map (·.setFlags g) := by
  cases d with
  | reg r => rfl
  | mem m =>
    simp only [State.writeRM8, State.effectiveAddress_setFlags]
    cases s.effectiveAddress m with
    | error c => rfl
    | ok a => exact s.store8_setFlags g a v

theorem State.updateRM32_setFlags (d : RM Reg32) (f : Word → Word) :
    (s.setFlags g).updateRM32 d f = (s.updateRM32 d f).map (·.setFlags g) := by
  unfold State.updateRM32
  rw [State.readRM32_setFlags]
  cases s.readRM32 d with
  | error c => rfl
  | ok v => exact s.writeRM32_setFlags g d (f v)

theorem State.push32_setFlags (v : Word) :
    (s.setFlags g).push32 v = (s.push32 v).map (·.setFlags g) :=
  (s.setReg .esp (s.reg .esp - 4)).store32_setFlags g _ v

theorem State.jumpIf_setFlags (c : Bool) (rel : Byte) :
    (s.setFlags g).jumpIf c rel = (s.jumpIf c rel).setFlags g := by
  cases c <;> rfl

theorem State.ioWrite_setFlags (port : BitVec 16) (v : Byte) :
    (s.setFlags g).ioWrite port v = (s.ioWrite port v).setFlags g := by
  unfold State.ioWrite
  split <;> rfl

end

/-- R231: a pop reads nothing of the flags word. -/
theorem State.pop32_setFlags {s : State} {p : Word × State} (h : s.pop32 = .ok p) (g : Word) :
    (s.setFlags g).pop32 = .ok (p.1, p.2.setFlags g) := by
  obtain ⟨hfit, rfl⟩ := State.pop32_ok h
  exact State.pop32_eq (s := s.setFlags g) hfit

/-- R252: a port read reads nothing of the flags word. -/
theorem State.ioRead_setFlags {s t : State} {port : BitVec 16} {v : Byte}
    (h : s.ioRead port = .ok (v, t)) (g : Word) :
    (s.setFlags g).ioRead port = .ok (v, t.setFlags g) := by
  unfold State.ioRead
  rcases State.ioRead_ok h with ⟨hport, rfl, rfl⟩ | ⟨bs, hport, hin, rfl⟩
  · rw [if_neg hport]
  · rw [if_pos hport, State.setFlags_input, hin]
    rfl

/-- An operation that does not read the flags word completes the same from another flags word. -/
theorem complete_map_setFlags {r : Except Fatal State} {t : State} (h : complete r = .next t)
    (g : Word) : complete (r.map (·.setFlags g)) = .next (t.setFlags g) := by
  rw [complete_next.mp h, except_map_ok, complete_ok]

/-! ### Instructions that do not read the flags word -/

/-- How the flags words of two runs of one instruction are related, the one from the flags word `f`
and the other from `g`: both as they were, or both written by the same subtraction. -/
def FlagsAlike (f g f' g' : Word) : Prop :=
  (f' = f ∧ g' = g) ∨ ∃ a b, f' = subFlags a b f ∧ g' = subFlags a b g

/-- R28: the three subtractions write the flags that their operands give. -/
theorem exec_setFlags_of_writer {i : Instr} {s t : State} (g : Word) (hi : isFlagWriter i = true)
    (h : exec i s = .next t) :
    ∃ g', exec i (s.setFlags g) = .next (t.setFlags g') ∧ FlagsAlike s.flags g t.flags g' := by
  cases i with
  | cmpR32Rm32 r d =>
    obtain ⟨b, hb, rfl⟩ := except_map_eq_ok (complete_next.mp h)
    refine ⟨_, ?_, .inr ⟨s.reg r, b, rfl, rfl⟩⟩
    rw [exec, execCmpR32Rm32, State.readRM32_setFlags, hb]
    rfl
  | cmpRm32Imm8 d imm =>
    obtain ⟨a, ha, rfl⟩ := except_map_eq_ok (complete_next.mp h)
    refine ⟨_, ?_, .inr ⟨a, sext32 imm, rfl, rfl⟩⟩
    rw [exec, execCmpRm32Imm8, State.readRM32_setFlags, ha]
    rfl
  | subRm32Imm8 d imm =>
    obtain ⟨a, ha, hrest⟩ := except_bind_eq_ok (complete_next.mp h)
    obtain ⟨u, hu, rfl⟩ := except_map_eq_ok hrest
    refine ⟨_, ?_, .inr ⟨a, sext32 imm,
      by rw [State.computeSubFlags_flags, State.writeRM32_flags hu], rfl⟩⟩
    rw [exec, execSubRm32Imm8, State.readRM32_setFlags, ha, except_bind_ok,
      State.writeRM32_setFlags, hu]
    rfl
  | _ => cases hi

/-- R28, R29: an instruction that neither reads nor writes the flags word carries it along. -/
theorem exec_setFlags_of_not_writer {i : Instr} {s t : State} (g : Word)
    (hw : isFlagWriter i = false) (hj : isConditionalJump i = false) (h : exec i s = .next t) :
    exec i (s.setFlags g) = .next (t.setFlags g) := by
  cases i with
  | cmpR32Rm32 _ _ | cmpRm32Imm8 _ _ | subRm32Imm8 _ _ => cases hw
  | joRel8 _ | jnoRel8 _ | jcRel8 _ | jncRel8 _ | jzRel8 _ | jnzRel8 _ | jbeRel8 _ | jaRel8 _
  | jsRel8 _ | jnsRel8 _ | jlRel8 _ | jgeRel8 _ | jleRel8 _ | jgRel8 _ => cases hj
  | addRm32R32 d _ | addRm32Imm8 d _ | incRm32 d | decRm32 d =>
    have moved := complete_map_setFlags h g
    rwa [← State.updateRM32_setFlags] at moved
  | movRm8R8 d r =>
    have moved := complete_map_setFlags h g
    rwa [← State.writeRM8_setFlags] at moved
  | movRm32R32 d r =>
    have moved := complete_map_setFlags h g
    rwa [← State.writeRM32_setFlags] at moved
  | movR8Rm8 r d =>
    obtain ⟨v, hv, rfl⟩ := except_map_eq_ok (complete_next.mp h)
    rw [exec, execMovR8Rm8, State.readRM8_setFlags, hv]
    rfl
  | movR32Rm32 r d =>
    obtain ⟨v, hv, rfl⟩ := except_map_eq_ok (complete_next.mp h)
    rw [exec, execMovR32Rm32, State.readRM32_setFlags, hv]
    rfl
  | movR8Imm8 _ _ | movR32Imm32 _ _ | jmpRel32 _ | jmpRel8 _ => cases h; rfl
  | pushR32 r =>
    have moved := complete_map_setFlags h g
    rwa [← State.push32_setFlags] at moved
  | callRel32 rel =>
    obtain ⟨u, hu, rfl⟩ := except_map_eq_ok (complete_next.mp h)
    rw [exec, execCallRel32, State.push32_setFlags, State.setFlags_pc, hu]
    rfl
  | popR32 r =>
    obtain ⟨p, hp, rfl⟩ := except_map_eq_ok (complete_next.mp h)
    rw [exec, execPopR32, State.pop32_setFlags hp]
    rfl
  | ret =>
    obtain ⟨p, hp, rfl⟩ := except_map_eq_ok (complete_next.mp h)
    rw [exec, execRet, State.pop32_setFlags hp]
    rfl
  | leave =>
    obtain ⟨p, hp, rfl⟩ := except_map_eq_ok (complete_next.mp h)
    have moved : ((s.setFlags g).setReg .esp ((s.setFlags g).reg .ebp)).pop32 = _ :=
      State.pop32_setFlags hp g
    rw [exec, execLeave, moved]
    rfl
  | inAlDx =>
    obtain ⟨v, u, hr, rfl⟩ := execInAlDx_next h
    have moved : (s.setFlags g).ioRead (s.setFlags g).port = _ := State.ioRead_setFlags hr g
    rw [exec, execInAlDx, moved]
    rfl
  | outDxAl =>
    cases h
    exact congrArg Host.Outcome.next (s.ioWrite_setFlags g _ _)

/-- R29: any instruction but the fourteen conditional jumps runs the same from another flags word. -/
theorem exec_setFlags {i : Instr} {s t : State} (g : Word) (hj : isConditionalJump i = false)
    (h : exec i s = .next t) :
    ∃ g', exec i (s.setFlags g) = .next (t.setFlags g') ∧ FlagsAlike s.flags g t.flags g' := by
  cases hw : isFlagWriter i with
  | true => exact exec_setFlags_of_writer g hw h
  | false =>
    exact ⟨g, exec_setFlags_of_not_writer g hw hj h, .inl ⟨exec_flags_of_not_writer h hw, rfl⟩⟩

/-- Settles O33: that is the first part of `exec_setFlags`. -/
theorem onlyConditionalJumpsReadFlags : Obligations.OnlyConditionalJumpsReadFlags := by
  intro i s t g hj h
  obtain ⟨g', hexec, -⟩ := exec_setFlags g hj h
  exact ⟨g', hexec⟩

/-- R26, R170: flags words that agree on CF, ZF, SF and OF agree on them after the same instruction. -/
theorem FlagsAlike.sameFlagBits {f g f' g' : Word} (h : FlagsAlike f g f' g')
    (hfg : sameFlagBits f g) : sameFlagBits f' g' := by
  rcases h with ⟨rfl, rfl⟩ | ⟨a, b, rfl, rfl⟩
  · exact hfg
  · intro k hk
    rw [getLsbD_subFlags, getLsbD_subFlags, hfg k hk]

/-- R203: flags words that agree on CF, ZF, SF and OF give every conditional jump the same
condition. -/
theorem exec_conditionalJump_setFlags {i : Instr} {s t : State} {g : Word}
    (hj : isConditionalJump i = true) (hg : sameFlagBits s.flags g) (h : exec i s = .next t) :
    exec i (s.setFlags g) = .next (t.setFlags g) := by
  have cf : carryFlag g = carryFlag s.flags := (hg 0 rfl).symm
  have zf : zeroFlag g = zeroFlag s.flags := (hg 6 rfl).symm
  have sf : signFlag g = signFlag s.flags := (hg 7 rfl).symm
  have ov : overflowFlag g = overflowFlag s.flags := (hg 11 rfl).symm
  have jump {c c' : Bool} (rel : Byte) (hc : c' = c) :
      (.next ((s.setFlags g).jumpIf c' rel) : Out) = .next ((s.jumpIf c rel).setFlags g) := by
    rw [hc, State.jumpIf_setFlags]
  cases i with
  | joRel8 rel => cases h; exact jump rel ov
  | jnoRel8 rel => cases h; exact jump rel (congrArg _ ov)
  | jcRel8 rel => cases h; exact jump rel cf
  | jncRel8 rel => cases h; exact jump rel (congrArg _ cf)
  | jzRel8 rel => cases h; exact jump rel zf
  | jnzRel8 rel => cases h; exact jump rel (congrArg _ zf)
  | jsRel8 rel => cases h; exact jump rel sf
  | jnsRel8 rel => cases h; exact jump rel (congrArg _ sf)
  | jbeRel8 rel | jaRel8 rel =>
    cases h
    refine jump rel ?_
    simp only [condBelowEqual, State.setFlags_flags, cf, zf]
  | jlRel8 rel | jgeRel8 rel =>
    cases h
    refine jump rel ?_
    simp only [condLess, State.setFlags_flags, sf, ov]
  | jleRel8 rel | jgRel8 rel =>
    cases h
    refine jump rel ?_
    simp only [condLessEqual, State.setFlags_flags, zf, sf, ov]
  | _ => cases hj

theorem isFlagWriter_of_conditionalJump {i : Instr} (hj : isConditionalJump i = true) :
    isFlagWriter i = false := by
  cases i with
  | cmpR32Rm32 _ _ | cmpRm32Imm8 _ _ | subRm32Imm8 _ _ => cases hj
  | _ => rfl

/-- Settles O32: a conditional jump sees the same condition, and every other instruction does not look
at the flags word. -/
theorem inertFlagBitsNeverRead : Obligations.InertFlagBitsNeverRead := by
  intro i s t g hg h
  cases hj : isConditionalJump i with
  | true =>
    refine ⟨g, exec_conditionalJump_setFlags hj hg h, ?_⟩
    rwa [exec_flags_of_not_writer h (isFlagWriter_of_conditionalJump hj)]
  | false =>
    obtain ⟨g', hexec, halike⟩ := exec_setFlags g hj h
    exact ⟨g', hexec, halike.sameFlagBits hg⟩

end Sys2Proof.Machine
end

section
/-! PROOFS of the statements about data movement (41_data_movement.md), arithmetic and comparison
(42_arithmetic_compare.md), ports (45_io.md) and operands outside memory (20_memory.md). -/

namespace Sys2Proof.Machine

/-! ### The frames: what it takes to complete in one place

The state an instruction answers is given as updates of the old one; the flags word is written last. -/

section
variable {i : Instr} {s : State}

theorem completesInReg_of_exec {q : Reg32} {v f : Word}
    (h : exec i s = .next ((s.setReg q v).setFlags f)) : completesInReg i s q v f :=
  ⟨_, h, s.reg_setReg_same q v, fun _ hr => s.reg_setReg_ne v (List.ne_of_not_mem_cons hr), rfl, rfl,
    rfl, ⟨rfl, rfl, rfl⟩, rfl, rfl⟩

/-- R23: the parent of a view is one of the first four registers. -/
theorem ne_reg8Parent {r : Reg32} (hr : r ∉ [Reg32.eax, .ecx, .edx, .ebx]) (q : Reg8) :
    r ≠ reg8Parent q := by
  have parent : ∀ q, reg8Parent q ∈ [Reg32.eax, .ecx, .edx, .ebx] := fun q => by cases q <;> decide
  rintro rfl
  exact hr (parent q)

theorem completesInReg8_of_exec {q : Reg8} {v : Byte} (h : exec i s = .next (s.setReg8 q v)) :
    completesInReg8 i s q v :=
  ⟨_, h, s.reg8_setReg8_same q v, fun _ hr => s.reg8_setReg8_ne v hr,
    fun r _ hk => s.getLsbD_reg_setReg8_upper q v r hk,
    fun _ hr => s.reg_setReg8_ne q v (ne_reg8Parent hr q), rfl, rfl, rfl,
    ⟨rfl, rfl, rfl⟩, rfl, rfl⟩

theorem completesInMem32_of_exec {a v f : Word} (hw : s.mem.wf) (hfit : a.toNat + 4 ≤ s.mem.size)
    (h : exec i s = .next ((s.setMem (s.mem.setWord a.toNat v)).setFlags f)) :
    completesInMem32 i s a v f := by
  have stored := Memory.wordAt_setWord_same hw hfit v
  have outside (x) := Memory.byte_setWord_outside hw a.toNat v (x := x)
  have size := Memory.setWord_size s.mem a.toNat v
  generalize s.mem.setWord a.toNat v = n at h stored outside size
  exact ⟨_, h, stored, outside, fun _ _ => rfl, rfl, rfl, ⟨rfl, size, rfl⟩, rfl, rfl⟩

theorem completesInMem8_of_exec {a : Word} {v : Byte} (hw : s.mem.wf)
    (hfit : a.toNat + 1 ≤ s.mem.size)
    (h : exec i s = .next (s.setMem (s.mem.setByte a.toNat v))) : completesInMem8 i s a v :=
  ⟨_, h, (Memory.byte_setByte hw hfit v _).trans (if_pos rfl),
    fun _ hx => Memory.byte_setByte_ne hw _ v (by omega), fun _ _ => rfl, rfl, rfl,
    ⟨rfl, Memory.setByte_size _ _ _, rfl⟩, rfl, rfl⟩

theorem completesInFlags_of_exec {f : Word} (h : exec i s = .next (s.setFlags f)) :
    completesInFlags i s f :=
  ⟨_, h, rfl, fun _ _ => rfl, rfl, rfl, ⟨rfl, rfl, rfl⟩, rfl, rfl⟩

end

/-! ### Moves (R150 to R155) -/

/-- Settles O34: both meanings are one register write. -/
theorem movImmediateCompletes : Obligations.MovImmediateCompletes := fun _ _ _ _ _ =>
  ⟨completesInReg_of_exec rfl, completesInReg8_of_exec rfl⟩

/-- Settles O35, by the law of the operand write in each form. -/
theorem movRm8R8Completes : Obligations.MovRm8R8Completes := by
  intro s r hw
  refine ⟨fun q => completesInReg8_of_exec rfl,
    fun m a ha hfit => completesInMem8_of_exec hw hfit ?_⟩
  rw [exec, execMovRm8R8, State.writeRM8_mem ha hfit, complete_ok]

/-- Settles O37, by the law of the operand read in each form. -/
theorem movR8Rm8Completes : Obligations.MovR8Rm8Completes := by
  intro s r
  refine ⟨fun q => completesInReg8_of_exec rfl, fun m a ha hfit => completesInReg8_of_exec ?_⟩
  rw [exec, execMovR8Rm8, State.readRM8_mem ha hfit, except_map_ok, complete_ok]

/-- Settles O38, by the law of the operand read in each form. -/
theorem movR32Rm32Completes : Obligations.MovR32Rm32Completes := by
  intro s r
  refine ⟨fun q => completesInReg_of_exec rfl, fun m a ha hfit => completesInReg_of_exec ?_⟩
  rw [exec, execMovR32Rm32, State.readRM32_mem ha hfit, except_map_ok, complete_ok]
  rfl

/-! ### Updates of an `rm32` operand (R129, R133) -/

/-- An instruction that reads its `rm32` operand, writes `f` of the value to it and then sets the flags
word to `g` of the value updates the operand in both forms. -/
theorem updatesRM32_of_exec {i : RM Reg32 → Instr} {s : State} {f g : Word → Word} (hw : s.mem.wf)
    (h : ∀ d v, s.readRM32 d = .ok v →
      exec (i d) s = complete ((s.writeRM32 d (f v)).map (·.setFlags (g v)))) :
    updatesRM32 i s f g := by
  refine ⟨fun q => completesInReg_of_exec (h _ _ (s.readRM32_reg q)), fun m a ha hfit => ?_⟩
  refine completesInMem32_of_exec hw hfit ?_
  rw [h _ _ (State.readRM32_mem ha hfit), State.writeRM32_mem ha hfit, except_map_ok, complete_ok]

/-- What is done after a write to an operand may use that the write left the flags word. -/
theorem State.writeRM32_map_congr {s : State} {d : RM Reg32} {v : Word} {F G : State → State}
    (h : ∀ u, u.flags = s.flags → F u = G u) :
    (s.writeRM32 d v).map F = (s.writeRM32 d v).map G := by
  cases hu : s.writeRM32 d v with
  | error c => rfl
  | ok u => rw [except_map_ok, except_map_ok, h u (State.writeRM32_flags hu)]

/-- Setting the flags word to what it was changes nothing. -/
theorem State.writeRM32_map_setFlags_self (s : State) (d : RM Reg32) (v : Word) :
    (s.writeRM32 d v).map (·.setFlags s.flags) = s.writeRM32 d v := by
  have same : (s.writeRM32 d v).map (·.setFlags s.flags) = (s.writeRM32 d v).map id :=
    State.writeRM32_map_congr fun u hu => by rw [← hu]; rfl
  rw [same, Except.map_id, id]

/-- A read-modify-write without flags updates the operand in both forms. -/
theorem updatesRM32_of_updateRM32 {i : RM Reg32 → Instr} {s : State} {f : Word → Word}
    (hw : s.mem.wf) (h : ∀ d, exec (i d) s = complete (s.updateRM32 d f)) :
    updatesRM32 i s f (fun _ => s.flags) := by
  refine updatesRM32_of_exec hw fun d v hv => ?_
  rw [h, State.updateRM32, hv, except_bind_ok, State.writeRM32_map_setFlags_self]

/-- Settles O36: a move is the update that ignores the old value. -/
theorem movRm32R32Completes : Obligations.MovRm32R32Completes := fun s r hw =>
  updatesRM32_of_exec hw fun d _ _ =>
    congrArg complete (s.writeRM32_map_setFlags_self d (s.reg r)).symm

/-- Settles O39: a read-modify-write that adds the register. -/
theorem addRm32R32Completes : Obligations.AddRm32R32Completes := fun _ _ hw =>
  updatesRM32_of_updateRM32 hw fun _ => rfl

/-- Settles O40: a read-modify-write that adds the sign-extended immediate. -/
theorem addRm32Imm8Completes : Obligations.AddRm32Imm8Completes := fun _ _ hw =>
  updatesRM32_of_updateRM32 hw fun _ => rfl

/-- Settles O44: read-modify-writes that add and subtract 1. -/
theorem incDecRm32Complete : Obligations.IncDecRm32Complete := fun _ hw =>
  ⟨updatesRM32_of_updateRM32 hw fun _ => rfl, updatesRM32_of_updateRM32 hw fun _ => rfl⟩

/-- Settles O41: the write leaves the flags word, on which the subtraction then acts. -/
theorem subRm32Imm8Completes : Obligations.SubRm32Imm8Completes := by
  intro s imm hw
  refine updatesRM32_of_exec hw fun d v hv => ?_
  rw [exec, execSubRm32Imm8, hv, except_bind_ok]
  exact congrArg complete (State.writeRM32_map_congr fun u hu => by
    rw [State.computeSubFlags, hu]; rfl)

/-! ### Compares (R177, R178) -/

/-- Settles O42: a compare reads its operand and sets the flags word. -/
theorem cmpRm32Imm8Completes : Obligations.CmpRm32Imm8Completes := by
  intro s imm
  refine ⟨fun q => completesInFlags_of_exec rfl, fun m a ha hfit => completesInFlags_of_exec ?_⟩
  rw [exec, execCmpRm32Imm8, State.readRM32_mem ha hfit, except_map_ok, complete_ok]
  rfl

/-- Settles O43: a compare reads its operand and sets the flags word. -/
theorem cmpR32Rm32Completes : Obligations.CmpR32Rm32Completes := by
  intro s r
  refine ⟨fun q => completesInFlags_of_exec rfl, fun m a ha hfit => completesInFlags_of_exec ?_⟩
  rw [exec, execCmpR32Rm32, State.readRM32_mem ha hfit, except_map_ok, complete_ok]
  rfl

/-! ### Ports (R250 to R255) -/

section
variable {s : State}

theorem exec_inAlDx_absent (h : s.port ≠ devicePort) :
    exec .inAlDx s = .next (s.setReg8 .al 0) := by
  rw [exec, execInAlDx, State.ioRead, if_neg h]

theorem exec_inAlDx_device (h : s.port = devicePort) {b : Byte} {bs : List Byte}
    (hin : s.input = b :: bs) : exec .inAlDx s = .next ((s.setInput bs).setReg8 .al b) := by
  rw [exec, execInAlDx, State.ioRead, if_pos h, hin]

theorem exec_inAlDx_blocked (h : s.port = devicePort) (hin : s.input = []) :
    exec .inAlDx s = .fault .blockedOnInput := by
  rw [exec, execInAlDx, State.ioRead, if_pos h, hin]

theorem exec_outDxAl_absent (h : s.port ≠ devicePort) : exec .outDxAl s = .next s := by
  rw [exec, execOutDxAl, State.ioWrite, if_neg h]

theorem exec_outDxAl_device (h : s.port = devicePort) :
    exec .outDxAl s = .next (s.emit (s.reg8 .al)) := by
  rw [exec, execOutDxAl, State.ioWrite, if_pos h]

end

/-- R24: writing AL leaves bits 8 and up of EAX. -/
theorem State.getLsbD_reg_setReg8_al (s : State) (v : Byte) {k : Nat} (hk : 8 ≤ k) :
    ((s.setReg8 .al v).reg .eax).getLsbD k = (s.reg .eax).getLsbD k := by
  have parent : (s.setReg8 .al v).reg .eax = withViewByte false (s.reg .eax) v :=
    s.reg_parent_setReg8 .al v
  rw [parent, getLsbD_withViewByte, if_neg (by simpa using hk)]

/-- Settles O54: one clause for each thing a port read can do. -/
theorem inAlDxCompletes : Obligations.InAlDxCompletes := by
  intro s
  refine ⟨fun hport => completesInReg8_of_exec (exec_inAlDx_absent hport), fun hport b bs hin => ?_,
    exec_inAlDx_blocked⟩
  exact ⟨_, exec_inAlDx_device hport hin, State.reg8_setReg8_same _ _ _, rfl,
    fun k hk => State.getLsbD_reg_setReg8_al _ b hk,
    fun r hr => State.reg_setReg8_ne _ .al b (List.ne_of_not_mem_cons hr), rfl, rfl, rfl,
    ⟨rfl, rfl, rfl⟩, rfl⟩

/-- Settles O55: the byte is taken at the device's port and dropped at any other. -/
theorem outDxAlCompletes : Obligations.OutDxAlCompletes := by
  intro s
  by_cases hport : s.port = devicePort
  · exact ⟨_, exec_outDxAl_device hport, (if_pos hport).symm, rfl, fun _ _ => rfl, rfl, rfl, rfl,
      rfl, rfl, rfl⟩
  · exact ⟨_, exec_outDxAl_absent hport, (if_neg hport).symm, rfl, fun _ _ => rfl, rfl, rfl, rfl,
      rfl, rfl, rfl⟩

/-! ### Addresses and operands outside memory (R126, R55) -/

/-- Settles O26: the table is the definition, row by row. -/
theorem effectiveAddressTable : Obligations.EffectiveAddressTable := fun _ _ _ _ _ =>
  ⟨rfl, rfl, rfl, rfl, rfl, rfl, rfl⟩

/-- Settles O57: an operand outside memory can be neither read nor written. -/
theorem operandOutsideMemoryIsFatal : Obligations.OperandOutsideMemoryIsFatal := by
  intro s imm r q m a b ha
  refine ⟨fun hb => exec_rm32Instrs_fault ?_ (fun v => ?_) r imm,
    fun hb => exec_rm8Instrs_fault ?_ (fun v => ?_) q⟩ <;>
    obtain ⟨hout, rfl⟩ := hb.not_fits_and_eq_max
  · rw [State.readRM32, ha, except_bind_ok, State.load32, Memory.read32_err hout]
  · rw [State.writeRM32, ha, except_bind_ok, State.store32, Memory.write32_err hout,
      except_map_error]
  · rw [State.readRM8, ha, except_bind_ok, State.load8, Memory.read8_err hout]
  · rw [State.writeRM8, ha, except_bind_ok, State.store8, Memory.write8_err hout, except_map_error]

end Sys2Proof.Machine
end

section
/-! PROOFS of the statements about the stack (44_stack.md) and about CALL and RET
(43_control_transfer.md). -/

namespace Sys2Proof.Machine

/-! ### What a push and a pop do (R230, R231) -/

/-- Everything a push of `v` from `s` leaves in `t`: the slot, and the frame around it. -/
structure Pushed (s t : State) (v : Word) : Prop where
  fits : (s.reg .esp - 4).toNat + 4 ≤ s.mem.size
  esp : t.reg .esp = s.reg .esp - 4
  stored : t.mem.wordAt (s.reg .esp - 4).toNat = v
  outside : memSameOutside s t (s.reg .esp - 4).toNat 4
  regs : regsSameBut s t [.esp]
  flags : t.flags = s.flags
  pc : t.pc = s.pc
  rest : restSame s t
  wf : t.mem.wf

theorem Pushed.size {s t : State} {v : Word} (h : Pushed s t v) : t.mem.size = s.mem.size := by
  obtain ⟨⟨-, hsize, -⟩, -⟩ := h.rest
  exact hsize

theorem State.pushed_of_push32 {s t : State} {v : Word} (hw : s.mem.wf) (h : s.push32 v = .ok t) :
    Pushed s t v := by
  have hregs : regsSameBut s t [.esp] := fun r hr =>
    State.reg_push32_ne h (List.ne_of_not_mem_cons hr)
  obtain ⟨kept, hflags⟩ := State.push32_keeps h
  obtain ⟨hfit, ht⟩ := State.push32_ok h
  have hmem : t.mem = s.mem.setWord (s.reg .esp - 4).toNat v := by rw [ht, State.setMem_mem]
  refine ⟨hfit, ?_, ?_, fun x hx => ?_, hregs, hflags, ?_,
    ⟨⟨kept.runState, kept.size, kept.freeCount⟩, ?_, ?_⟩, kept.wf hw⟩
  · rw [ht, State.reg_setMem, State.reg_setReg_same]
  · rw [hmem, Memory.wordAt_setWord_same hw hfit]
  · rw [hmem, Memory.byte_setWord_outside hw _ v hx]
  · rw [ht, State.setMem_pc, State.setReg_pc]
  · rw [ht, State.setMem_input, State.setReg_input]
  · rw [ht, State.setMem_output, State.setReg_output]

/-- A push whose slot lies in memory completes. -/
theorem State.exists_push32 {s : State} (hw : s.mem.wf) (v : Word)
    (hfit : (s.reg .esp - 4).toNat + 4 ≤ s.mem.size) : ∃ t, s.push32 v = .ok t ∧ Pushed s t v :=
  ⟨_, State.push32_eq v hfit, State.pushed_of_push32 hw (State.push32_eq v hfit)⟩

theorem exec_pushR32 {r : Reg32} {s t : State} (h : s.push32 (s.reg r) = .ok t) :
    exec (.pushR32 r) s = .next t := by
  rw [exec, execPushR32, h, complete_ok]

theorem exec_callRel32 {rel : Word} {s t : State} (h : s.push32 s.pc = .ok t) :
    exec (.callRel32 rel) s = .next (t.jump rel) := by
  rw [exec, execCallRel32, h, except_map_ok, complete_ok]

section
variable {s : State}

theorem exec_popR32 (r : Reg32) (h : (s.reg .esp).toNat + 4 ≤ s.mem.size) :
    exec (.popR32 r) s = .next
      ((s.setReg .esp (s.reg .esp + 4)).setReg r (s.mem.wordAt (s.reg .esp).toNat)) := by
  rw [exec, execPopR32, State.pop32_eq h, except_map_ok, complete_ok]

theorem exec_ret (h : (s.reg .esp).toNat + 4 ≤ s.mem.size) :
    exec .ret s = .next
      ((s.setReg .esp (s.reg .esp + 4)).setPc (s.mem.wordAt (s.reg .esp).toNat)) := by
  rw [exec, execRet, State.pop32_eq h, except_map_ok, complete_ok]

/-- R236: LEAVE is the pop of EBP from the address that EBP holds. -/
theorem exec_leave (h : (s.reg .ebp).toNat + 4 ≤ s.mem.size) :
    exec .leave s = .next (((s.setReg .esp (s.reg .ebp)).setReg .esp (s.reg .ebp + 4)).setReg .ebp
      (s.mem.wordAt (s.reg .ebp).toNat)) := by
  have hesp : (s.setReg .esp (s.reg .ebp)).reg .esp = s.reg .ebp := State.reg_setReg_same _ _ _
  rw [exec, execLeave, State.pop32_eq (by rwa [hesp]), hesp, except_map_ok, complete_ok,
    State.setReg_mem]

end

/-! ### The instructions (R218, R219, R233, R234, R236) -/

/-- Settles O49: PUSH is the push of the old register value. -/
theorem pushR32Completes : Obligations.PushR32Completes := by
  intro s r hw hfit
  obtain ⟨t, ht, p⟩ := State.exists_push32 hw (s.reg r) hfit
  exact ⟨t, exec_pushR32 ht, p.esp, p.stored, p.outside, p.regs, p.flags, p.pc, p.rest⟩

/-- Settles O47: CALL is the push of the return address, then a change of the program counter. -/
theorem callRel32Completes : Obligations.CallRel32Completes := by
  intro s rel hw hfit
  obtain ⟨t, ht, p⟩ := State.exists_push32 hw s.pc hfit
  exact ⟨t.jump rel, exec_callRel32 ht, congrArg (· + rel) p.pc, p.esp, p.stored, p.outside, p.regs,
    p.flags, p.rest⟩

/-- Settles O48: RET is a pop whose value becomes the program counter. -/
theorem retCompletes : Obligations.RetCompletes := by
  intro s hfit
  exact ⟨_, exec_ret hfit, rfl, s.reg_setReg_same .esp _, rfl,
    fun r hr => s.reg_setReg_ne _ (List.ne_of_not_mem_cons hr), rfl, ⟨rfl, rfl, rfl⟩, rfl, rfl⟩

/-- Settles O50: the register is written after ESP, so POP ESP keeps the loaded value. -/
theorem popR32Completes : Obligations.PopR32Completes := by
  intro s r hfit
  refine ⟨_, exec_popR32 r hfit, State.reg_setReg_same _ _ _, fun hr => ?_, rfl, fun q hq => ?_, rfl,
    rfl, ⟨rfl, rfl, rfl⟩, rfl, rfl⟩
  · rw [State.reg_setReg_ne _ _ hr.symm, State.reg_setReg_same]
  · simp only [List.mem_cons, List.not_mem_nil, or_false, not_or] at hq
    obtain ⟨hqr, hqesp⟩ := hq
    rw [State.reg_setReg_ne _ _ hqr, State.reg_setReg_ne _ _ hqesp]

/-- Settles O51: ESP takes EBP's value, and EBP is popped from there. -/
theorem leaveCompletes : Obligations.LeaveCompletes := by
  intro s hfit
  refine ⟨_, exec_leave hfit, ?_, State.reg_setReg_same _ _ _, rfl, fun q hq => ?_, rfl, rfl,
    ⟨rfl, rfl, rfl⟩, rfl, rfl⟩
  · rw [State.reg_setReg_ne _ _ (by decide), State.reg_setReg_same]
  · simp only [List.mem_cons, List.not_mem_nil, or_false, not_or] at hq
    obtain ⟨hqesp, hqebp⟩ := hq
    rw [State.reg_setReg_ne _ _ hqebp, State.reg_setReg_ne _ _ hqesp, State.reg_setReg_ne _ _ hqesp]

/-! ### Slots outside memory (R230, R231, R273) -/

theorem State.push32_err {s : State} (v : Word) (h : s.mem.size < (s.reg .esp - 4).toNat + 4) :
    s.push32 v = .error (.outOfBounds (max (s.reg .esp - 4).toNat s.mem.size)) := by
  rw [State.push32, State.reg_setReg_same, State.store32, State.setReg_mem, Memory.write32_err h,
    except_map_error]

theorem State.pop32_err {s : State} (h : s.mem.size < (s.reg .esp).toNat + 4) :
    s.pop32 = .error (.outOfBounds (max (s.reg .esp).toNat s.mem.size)) := by
  rw [State.pop32, State.load32, Memory.read32_err h, except_map_error]

/-- Settles O58: PUSH and CALL start with a push, POP, RET and LEAVE with a pop; LEAVE's is at EBP. -/
theorem stackOutsideMemoryIsFatal : Obligations.StackOutsideMemoryIsFatal := by
  intro s r rel b
  refine ⟨fun hb => ?_, fun hb => ?_, fun hb => ?_⟩ <;>
    obtain ⟨hout, rfl⟩ := hb.not_fits_and_eq_max
  · exact ⟨congrArg complete (State.push32_err _ hout),
      complete_map_error (State.push32_err _ hout) _⟩
  · exact ⟨complete_map_error (State.pop32_err hout) _, complete_map_error (State.pop32_err hout) _⟩
  · exact complete_map_error (State.pop32_err (s := s.setReg .esp (s.reg .ebp)) hout) _

/-! ### A call, its frame, and the return (R221) -/

/-- Two slots one below the other do not overlap, wherever the lower one wraps to. -/
theorem slot_below_disjoint (a : Word) {x : Nat} (hlo : a.toNat ≤ x) (hhi : x < a.toNat + 4) :
    x < (a - 4).toNat ∨ (a - 4).toNat + 4 ≤ x := by
  have := a.isLt
  have hsub : (a - 4).toNat = (4294967292 + a.toNat) % 4294967296 := BitVec.toNat_sub a 4
  omega

/-- The frame that CALL and the prologue build: EBP at the slot of the saved EBP, and the slot of the
return address above it; both lie in memory, and the other registers but ESP are the caller's. -/
structure CallFrame (s t : State) : Prop where
  ebp : t.reg .ebp = s.reg .esp - 4 - 4
  fitsEbp : (s.reg .esp - 4 - 4).toNat + 4 ≤ t.mem.size
  fitsReturn : (s.reg .esp - 4).toNat + 4 ≤ t.mem.size
  savedEbp : t.mem.wordAt (s.reg .esp - 4 - 4).toNat = s.reg .ebp
  returnAddress : t.mem.wordAt (s.reg .esp - 4).toNat = s.pc
  others : regsSameBut s t [.esp, .ebp]

/-- The prologue's MOV EBP, ESP and SUB ESP, imm8 set EBP to ESP and leave the memory and every other
register but ESP. -/
theorem exec_mov_sub {s t u : State} {p : Word} {imm : Byte}
    (hmov : exec (.movRm32R32 (.reg .ebp) .esp) s = .next t)
    (hsub : exec (.subRm32Imm8 (.reg .esp) imm) (t.setPc p) = .next u) :
    u.reg .ebp = s.reg .esp ∧ u.mem = s.mem ∧ regsSameBut s u [.esp, .ebp] := by
  obtain rfl := next_inj hmov
  obtain rfl := next_inj hsub
  have frame {r : Reg32} (hr : r ≠ .esp) := State.reg_setReg_ne
    ((s.setReg .ebp (s.reg .esp)).setPc p)
    (((s.setReg .ebp (s.reg .esp)).setPc p).reg .esp - sext32 imm) hr
  refine ⟨(frame (by decide)).trans (s.reg_setReg_same .ebp _), rfl, fun r hr => ?_⟩
  simp only [List.mem_cons, List.not_mem_nil, or_false, not_or] at hr
  obtain ⟨hesp, hebp⟩ := hr
  exact (frame hesp).trans (s.reg_setReg_ne _ hebp)

/-- CALL, push EBP, mov EBP ESP and a frame allocation build the frame. -/
theorem callFrame_of_prologue {s t1 t2 t3 t4 : State} {rel p1 p2 p3 : Word} {imm : Byte}
    (hw : s.mem.wf) (hcall : exec (.callRel32 rel) s = .next t1)
    (hpush : exec (.pushR32 .ebp) (t1.setPc p1) = .next t2)
    (hmov : exec (.movRm32R32 (.reg .ebp) .esp) (t2.setPc p2) = .next t3)
    (hsub : exec (.subRm32Imm8 (.reg .esp) imm) (t3.setPc p3) = .next t4) : CallFrame s t4 := by
  obtain ⟨u, hu, rfl⟩ := except_map_eq_ok (complete_next.mp hcall)
  have called := State.pushed_of_push32 hw hu
  have pushed := State.pushed_of_push32 (s := (u.jump rel).setPc p1) called.wf
    (complete_next.mp hpush)
  obtain ⟨hebp, hmem, hregs⟩ := exec_mov_sub hmov hsub
  have hbase : ((u.jump rel).setPc p1).reg .esp = s.reg .esp - 4 := called.esp
  have hsize : t4.mem.size = u.mem.size := by rw [hmem]; exact pushed.size
  obtain ⟨fits, esp, stored, outside, regs, -⟩ := pushed
  rw [hbase] at fits esp stored outside
  refine ⟨hebp.trans esp, ?_, ?_, ?_, ?_, fun r hr => ?_⟩
  · rw [hsize]
    exact fits
  · rw [hsize, called.size]
    exact called.fits
  · rw [hmem, State.setPc_mem, stored]
    exact called.regs .ebp (by decide)
  · rw [hmem, State.setPc_mem, ← called.stored]
    exact Memory.wordAt_congr fun x hlo hhi => outside x (slot_below_disjoint _ hlo hhi)
  · have hesp : r ∉ [Reg32.esp] := fun h => hr (List.mem_append_left [Reg32.ebp] h)
    calc t4.reg r = t2.reg r := hregs r hr
      _ = u.reg r := regs r hesp
      _ = s.reg r := called.regs r hesp

/-- LEAVE and RET tear the frame down. -/
theorem CallFrame.teardown {s t : State} (h : CallFrame s t) (p4 p5 : Word) :
    ∃ t5 u, exec .leave (t.setPc p4) = .next t5 ∧ exec .ret (t5.setPc p5) = .next u ∧
      u.pc = s.pc ∧ ∀ r, u.reg r = s.reg r := by
  obtain ⟨t5, hleave, hesp, hebp, hmem, hregs, -⟩ :=
    leaveCompletes (t.setPc p4) (by rw [State.reg_setPc, h.ebp]; exact h.fitsEbp)
  rw [State.reg_setPc, h.ebp, BitVec.sub_add_cancel] at hesp
  rw [State.reg_setPc, h.ebp, State.setPc_mem, h.savedEbp] at hebp
  rw [State.setPc_mem] at hmem
  obtain ⟨u, hret, hpc, hesp', -, hregs', -⟩ :=
    retCompletes (t5.setPc p5) (by rw [State.reg_setPc, hesp, State.setPc_mem, hmem]; exact h.fitsReturn)
  rw [State.reg_setPc, hesp, State.setPc_mem, hmem, h.returnAddress] at hpc
  rw [State.reg_setPc, hesp, BitVec.sub_add_cancel] at hesp'
  refine ⟨t5, u, hleave, hret, hpc, fun r => ?_⟩
  by_cases hr : r = .esp
  · rw [hr, hesp']
  have hafter : u.reg r = t5.reg r := hregs' r (by simpa using hr)
  rw [hafter]
  by_cases hb : r = .ebp
  · rw [hb, hebp]
  have hother : r ∉ [Reg32.esp, .ebp] := by simp [hr, hb]
  exact (hregs r hother).trans (h.others r hother)

/-- Settles O53: the prologue builds a frame that LEAVE and RET tear down. -/
theorem frameTeardownReturns : Obligations.FrameTeardownReturns := by
  intro s t1 t2 t3 t4 rel p1 p2 p3 p4 p5 imm hw hcall hpush hmov hsub
  exact (callFrame_of_prologue hw hcall hpush hmov hsub).teardown p4 p5

end Sys2Proof.Machine
end
